-- ==== Sys2Proof/Word.lean ====
section
/-! DEFINITION. The plain data the whole model is written over: 32-bit register words, octets, byte sequences
(00_scope.md rules R9 to R11). What computes on them stands in Machine/Ops.lean. -/

namespace Sys2Proof

/-- A u32: the width of every register and of the host data bus (R8, R10). -/
abbrev Word := BitVec 32

/-- An octet (R11). -/
abbrev Byte := BitVec 8

/-- A finite list of octets, byte 0 first (R11). -/
abbrev ByteSeq := List Byte

end Sys2Proof
end

