-- ==== Sys2Proof/Config.lean ====
section
/-! DEFINITION. What is fixed for one machine: the two parameters the spec leaves open (00_scope.md rule R6,
20_memory.md rule R37; 93_implementation_defined.md I12, I13), and what a DMEM byte nothing has written reads as. -/

namespace Sys2Proof

/-- The parameters of one TOTP-CORE block. They stand in State (`State.cfg`), no step changes them, and a statement
about every state is a statement about every legal DMEM size. -/
structure Config where
  /-- `DMEM_BYTES` is 2^(8 + dmemExp): the nine powers of two from 256 to 65536, and no other (R6). -/
  dmemExp : Fin 9
  /-- `BLOCK_BASE`: where the platform places the block. No rule reads it: every offset is relative to it (R37, I13). -/
  blockBase : Nat
  deriving DecidableEq, Repr

/-- `DMEM_BYTES`, the size of the local data memory in bytes (R6). -/
def Config.dmemBytes (c : Config) : Nat := 2 ^ (8 + c.dmemExp.val)

/-- The reference size, 4096 bytes (R6). The base 0 is a DESIGN CHOICE that nothing reads (log entry 2). -/
def Config.reference : Config := { dmemExp := 4, blockBase := 0 }

/-- What a DMEM byte reads as that no power-on draw and no write has given a value.
DESIGN CHOICE, unsafe (log entry 1): the spec says that any byte may stand there after a power-on reset; the
power-on event carries the draw, so only a claim about `State.reset` itself can lean on this value. -/
def Config.blankByte : Byte := 0x00

end Sys2Proof
end

