-- ==== Sys2Proof/Syntax.lean ====
section
/-! DEFINITION. The command set, one constructor per row of spec/opcode_table.json (30_encoding.md rule R60).
A command is the block's instruction. -/

namespace Sys2Proof

/-- The seven commands of rule R60. All operands but DIGITS come from the operand registers (R61, R62). -/
inductive Instr where
  /-- SHA1, OP = 0x1 (R100). -/
  | sha1
  /-- PREPARE_KEY, OP = 0x2 (R108). -/
  | prepareKey
  /-- HMAC_SHA1, OP = 0x3 (R109). -/
  | hmacSha1
  /-- B32_ENCODE, OP = 0x4 (R120). -/
  | b32Encode
  /-- B32_DECODE, OP = 0x5 (R121). -/
  | b32Decode
  /-- HOTP_TRUNCATE, OP = 0x6, with the digit count of CMD[11:8] (R131). -/
  | hotpTruncate (digits : Nat)
  /-- HOTP, OP = 0x7, with the digit count of CMD[11:8] (R132). -/
  | hotp (digits : Nat)
  deriving DecidableEq, Repr

end Sys2Proof
end

