-- ==== Sys2Proof/WellFormed.lean ====
section
/-! DEFINITION. Which commands have a word. -/

namespace Sys2Proof

/-- The digit count fits its field CMD[11:8], 0 to 15 (30_encoding.md rule R61). The counts 0 and 11 to 15 have a word:
such a word decodes, and the command completes with RANGE_ERROR (R63). -/
def digitsFit (digits : Nat) : Bool := decide (digits < 16)

/-- A command has an encoding. -/
def Instr.wellFormed : Instr → Bool
  | .sha1 => true
  | .prepareKey => true
  | .hmacSha1 => true
  | .b32Encode => true
  | .b32Decode => true
  | .hotpTruncate digits => digitsFit digits
  | .hotp digits => digitsFit digits

end Sys2Proof
end

