-- ==== Sys2Proof/Decode.lean ====
section
/-! DEFINITION. The decoder of CMD words, total and rejecting by name, and after it the encoder, both written from
30_encoding.md rules R60, R61 and R63; the opcode table's rows as mask and match. -/

namespace Sys2Proof

/-- Why a CMD word is ILLEGAL (30_encoding.md rules R63 and R65). All three complete with ILLEGAL_CMD. -/
inductive Illegal where
  /-- CMD[31:12] or CMD[7:4] is not 0. -/
  | reservedBits
  /-- OP is 0x1 to 0x5 and DIGITS is not 0. -/
  | digitsNotZero
  /-- OP is 0x0 or 0x8 to 0xF. -/
  | reservedOpcode
  deriving DecidableEq, Repr

/-- CMD[3:0] (R61). -/
def cmdOp (w : Word) : Nat := (w.extractLsb' 0 4).toNat

/-- CMD[7:4], reserved (R61). -/
def cmdReservedLow (w : Word) : Nat := (w.extractLsb' 4 4).toNat

/-- CMD[11:8], read as an unsigned number (R61). -/
def cmdDigits (w : Word) : Nat := (w.extractLsb' 8 4).toNat

/-- CMD[31:12], reserved (R61). -/
def cmdReservedHigh (w : Word) : Nat := (w.extractLsb' 12 20).toNat

/-- A command without a digit count: DIGITS must be 0 (R63). -/
def decodePlain (digits : Nat) (i : Instr) : Except Illegal Instr :=
  if digits = 0 then .ok i else .error .digitsNotZero

/-- The decoder (R63). -/
def decode (w : Word) : Except Illegal Instr :=
  if cmdReservedHigh w ≠ 0 ∨ cmdReservedLow w ≠ 0 then .error .reservedBits
  else match cmdOp w with
    | 0x1 => decodePlain (cmdDigits w) .sha1
    | 0x2 => decodePlain (cmdDigits w) .prepareKey
    | 0x3 => decodePlain (cmdDigits w) .hmacSha1
    | 0x4 => decodePlain (cmdDigits w) .b32Encode
    | 0x5 => decodePlain (cmdDigits w) .b32Decode
    | 0x6 => .ok (.hotpTruncate (cmdDigits w))
    | 0x7 => .ok (.hotp (cmdDigits w))
    | _ => .error .reservedOpcode

/-- The CMD word of a command: OP in [3:0], DIGITS in [11:8], every other bit 0 (R60, R61, R68). DESIGN CHOICE (log entry
14): the spec gives a digit count above 15 no word; here it gives 0x6 or 0x7 + digits * 0x100 modulo 2^32. -/
def encode : Instr → Word
  | .sha1 => 0x00000001
  | .prepareKey => 0x00000002
  | .hmacSha1 => 0x00000003
  | .b32Encode => 0x00000004
  | .b32Decode => 0x00000005
  | .hotpTruncate digits => BitVec.ofNat 32 (0x6 + digits * 0x100)
  | .hotp digits => BitVec.ofNat 32 (0x7 + digits * 0x100)

/-- A row of the opcode table: a word is of the row when its bits under `mask` are `pattern`. -/
structure OpcodeRow where
  mask : Word
  pattern : Word
  deriving DecidableEq, Repr

/-- The rows of spec/opcode_table.json, in its order. -/
def opcodeRows : List OpcodeRow :=
  [⟨0xFFFFFFFF, 0x00000001⟩, ⟨0xFFFFFFFF, 0x00000002⟩, ⟨0xFFFFFFFF, 0x00000003⟩, ⟨0xFFFFFFFF, 0x00000004⟩,
   ⟨0xFFFFFFFF, 0x00000005⟩, ⟨0xFFFFF0FF, 0x00000006⟩, ⟨0xFFFFF0FF, 0x00000007⟩]

/-- A word is of a row. -/
def OpcodeRow.admits (r : OpcodeRow) (w : Word) : Bool := w &&& r.mask == r.pattern

/-- What the decoder reads from an instruction whose bits are w, numbered as the opcode table numbers them. A CMD word
is one 32-bit word (R61, R66), so bit k of the table is bit k of the word; bits from nbits up are 0. -/
def decodeTableWord (nbits w : Nat) : Option Instr :=
  if w % 2 ^ nbits < 2 ^ 32 then (decode (BitVec.ofNat 32 (w % 2 ^ nbits))).toOption else none

end Sys2Proof
end

