-- ==== Sys2Proof/Machine/State.lean ====
section
/-! DEFINITION. The state of the block as plain data (10_state.md rules R20 to R31), the host's transactions and their
responses (20_memory.md rule R40), the interleaving still to come (40_command.md rule R70), the two reason types, and
the state after a power-on reset (R36, R152). -/

namespace Sys2Proof.Machine

/-- Five u32 words H0 to H4: the accumulators of one SHA-1 pass (R34, R88), and the DIGEST0 to DIGEST4 registers (R31). -/
structure HashWords where
  h0 : Word
  h1 : Word
  h2 : Word
  h3 : Word
  h4 : Word
  deriving DecidableEq, Repr

/-- The seven operand registers, offsets 0x020 to 0x038 (R21, R28). The host writes them, commands only read them. -/
structure Operands where
  /-- SRC_ADDR, 0x020: DMEM offset of the message or source. -/
  srcAddr : Word
  /-- SRC_LEN, 0x024: byte length of the message or source. -/
  srcLen : Word
  /-- KEY_ADDR, 0x028: DMEM offset of the HMAC key. -/
  keyAddr : Word
  /-- KEY_LEN, 0x02C: byte length of the HMAC key. -/
  keyLen : Word
  /-- DST_ADDR, 0x030: DMEM offset where the output is written. -/
  dstAddr : Word
  /-- COUNTER_LO, 0x034: counter bits [31:0]. -/
  counterLo : Word
  /-- COUNTER_HI, 0x038: counter bits [63:32]. -/
  counterHi : Word
  deriving DecidableEq, Repr

/-- The result registers, offsets 0x040 to 0x060 (R21, R30, R31). Only a successful command writes them. -/
structure Results where
  /-- OUT_LEN, 0x040: byte length of the last output. -/
  outLen : Word
  /-- TRUNC_OFFSET, 0x044: last truncation offset. -/
  truncOffset : Word
  /-- TRUNC_P, 0x048: last 31-bit truncated value p. -/
  truncP : Word
  /-- CODE, 0x04C: last code value d. -/
  code : Word
  /-- DIGEST0 to DIGEST4, 0x050 to 0x060. -/
  digest : HashWords
  deriving DecidableEq, Repr

/-- DMEM (R38): the bytes that do not read as `Config.blankByte`, as (offset, byte) pairs, offsets strictly rising. -/
structure Memory where
  cells : List Host.Cell
  deriving DecidableEq, Repr

/-- The sizes of a host transaction (R40). -/
inductive AccessSize where
  /-- n = 1 -/
  | byte
  /-- n = 2 -/
  | half
  /-- n = 4 -/
  | word
  deriving DecidableEq, Repr

/-- A host transaction (R40), the tuple (kind, size, offset, data) of rule R67. Offsets are relative to the block's
base (R37). -/
inductive Transaction where
  /-- `Read(a, n)` -/
  | read (a : Word) (n : AccessSize)
  /-- `Write(a, n, v)`; only v[8n-1:0] is used. -/
  | write (a : Word) (n : AccessSize) (v : Word)
  deriving DecidableEq, Repr

/-- The response of the host port to a transaction (R40, R47). -/
inductive Response where
  /-- A successful read, with v below 2^(8n). -/
  | data (v : Word)
  /-- A successful write. -/
  | ok
  /-- The transaction was malformed, or refused while BUSY = 1. It carries no data and no code. -/
  | busError
  deriving DecidableEq, Repr

/-- One step of one of the agents of rule R70. -/
inductive Event where
  /-- The host takes a transaction. -/
  | host (t : Transaction)
  /-- The engine's turn: Complete, if it is enabled. -/
  | complete
  /-- The environment takes a power-on reset. `draw` is what DMEM holds after it (R152, 93 I1): the byte drawn for each
  listed offset; an offset listed nowhere drew `Config.blankByte`. Every content of DMEM is some draw. -/
  | powerOn (draw : List Host.Cell)
  deriving DecidableEq, Repr

/-- The registers of rule R21. -/
inductive Reg where
  | id | version | config | ctrl | status | cmd
  | srcAddr | srcLen | keyAddr | keyLen | dstAddr | counterLo | counterHi
  | outLen | truncOffset | truncP | code
  | digest0 | digest1 | digest2 | digest3 | digest4
  deriving DecidableEq, Repr

/-- The state of the block (R20). `cfg`, `response` and `pending` are the model's own fields: the parameters, the
port's last response, and the choice of which agent moves next. ID, VERSION and CONFIG are constants (R23), so reading
them needs no field beyond `cfg`; the sequencer state (R35) is RUN exactly when `busy` (Machine/Flags.lean). -/
structure State where
  /-- The parameters of the block; no step changes them. -/
  cfg : Config
  /-- CTRL.IRQ_EN (R24). -/
  irqEn : Bool
  /-- STATUS.BUSY (R25). -/
  busy : Bool
  /-- STATUS.DONE (R25). -/
  done : Bool
  /-- STATUS.ACCESS_ERR (R25). -/
  accessErr : Bool
  /-- STATUS.ERR_CODE (R25, R133). -/
  errCode : BitVec 4
  /-- CMD: the word of the current or last command (R27). -/
  cmd : Word
  /-- The operand registers (R28). -/
  operands : Operands
  /-- The result registers (R30, R31). -/
  results : Results
  /-- The local data memory (R38). -/
  dmem : Memory
  /-- The response to the last host transaction; none before the first (R40). -/
  response : Option Response
  /-- The steps still to come, next first. Every list is allowed: it is the free interleaving of the host, the engine
  and the reset input (R70; 93 I2, I14, I15). -/
  pending : List Event
  deriving DecidableEq, Repr

/-- Reasons for the machine to stop. There is none: no behaviour of the block is stuck (93_implementation_defined.md,
end of section 1). A malformed or refused transaction is answered with BusError and a failing command completes with
its code, and both leave a next state. Safe: nothing raises it. -/
inductive Fault
  deriving DecidableEq, Repr

/-- Reasons to give a command no meaning. -/
inductive Refusal where
  /-- A command whose meaning is not modelled yet. No arm of `exec` raises it: every command has its meaning. Safe. -/
  | notModelled (mnemonic : String)
  deriving DecidableEq, Repr

/-- Five zero words. -/
def HashWords.zero : HashWords := ⟨0, 0, 0, 0, 0⟩

/-- The operand registers after a reset (R36). -/
def Operands.reset : Operands := ⟨0, 0, 0, 0, 0, 0, 0⟩

/-- The result registers after a reset (R36). -/
def Results.reset : Results := ⟨0, 0, 0, 0, HashWords.zero⟩

/-- DMEM with nothing listed. -/
def Memory.empty : Memory := ⟨[]⟩

/-- The state right after a power-on reset (R36, R152). Its DMEM is ONE of the contents rule R152 allows (log entry 1);
the size is the reference size (log entry 2); no transaction has come yet and nothing is pending (log entry 3). -/
def State.reset : State where
  cfg := Config.reference
  irqEn := false
  busy := false
  done := false
  accessErr := false
  errCode := 0
  cmd := 0
  operands := Operands.reset
  results := Results.reset
  dmem := Memory.empty
  response := none
  pending := []

end Sys2Proof.Machine
end

