-- ==== Sys2Proof/Machine/Ops.lean ====
section
/-! DEFINITION. The named operations over words, byte sequences, DMEM and the state: the primitives of 00_scope.md
section 4, MemRead and MemWrite, the bounds predicate, the end of a command (the block's trap entry, 60_exceptions.md
rule R139) with the acknowledge that returns from it (R142), acceptance (R71) and the two resets (R152, R153). -/

namespace Sys2Proof.Machine

/-! ## Words and byte sequences -/

/-- Left rotation by n bits, for 0 < n < 32 (R13). -/
def rotl32 (x : Word) (n : Nat) : Word := (x <<< n) ||| (x >>> (32 - n))

/-- Byte i of a sequence (R11). Every use in a rule has i below the length; past it the value is never read. -/
def byteAt (s : ByteSeq) (i : Nat) : Byte := s.getD i 0

/-- `be32(s)` of a 4-byte sequence, byte 0 most significant (R14). -/
def be32 (s : ByteSeq) : Word :=
  BitVec.ofNat 32 ((byteAt s 0).toNat * 2 ^ 24 + (byteAt s 1).toNat * 2 ^ 16
    + (byteAt s 2).toNat * 2 ^ 8 + (byteAt s 3).toNat)

/-- Byte number k of a number, byte 0 least significant. -/
def byteOf (v k : Nat) : Byte := BitVec.ofNat 8 (v / 2 ^ (8 * k))

/-- `be32bytes(w)`: [w[31:24], w[23:16], w[15:8], w[7:0]] (R14). -/
def be32bytes (w : Word) : ByteSeq :=
  [byteOf w.toNat 3, byteOf w.toNat 2, byteOf w.toNat 1, byteOf w.toNat 0]

/-- `be64bytes(v)`: byte i is v[63-8i : 56-8i] (R14). -/
def be64bytes (v : BitVec 64) : ByteSeq :=
  (List.range 8).map fun i => byteOf v.toNat (7 - i)

/-- `bytes(n, v)` (R11). -/
def bytesOf (n : Nat) (v : Byte) : ByteSeq := List.replicate n v

/-- `zero_pad_right(s, n)`, for a sequence of at most n bytes (R15). -/
def zeroPadRight (s : ByteSeq) (n : Nat) : ByteSeq := s ++ bytesOf (n - s.length) 0x00

/-- `xor_bytes(s, v)` (R16). -/
def xorBytes (s : ByteSeq) (v : Byte) : ByteSeq := s.map fun b => b ^^^ v

/-- `ascii(c)` (R18). DESIGN CHOICE (log entry 12): a character that has no ASCII code gives its code point modulo 256. -/
def ascii (c : Char) : Byte := BitVec.ofNat 8 c.toNat

/-- The words of a 20-byte digest: word i is be32(dg[4i .. 4i+4)) (R31). -/
def digestWords (dg : ByteSeq) : HashWords :=
  ⟨be32 (dg.take 4), be32 ((dg.drop 4).take 4), be32 ((dg.drop 8).take 4),
   be32 ((dg.drop 12).take 4), be32 ((dg.drop 16).take 4)⟩

/-- Five words concatenated big-endian, 20 bytes (R98). -/
def digestBytes (h : HashWords) : ByteSeq :=
  be32bytes h.h0 ++ be32bytes h.h1 ++ be32bytes h.h2 ++ be32bytes h.h3 ++ be32bytes h.h4

/-! ## DMEM -/

/-- The byte listed for an offset, or what an unlisted offset reads as. -/
def readCell : List Host.Cell → Nat → Byte
  | [], _ => Config.blankByte
  | (k, b) :: rest, o => if k = o then b else readCell rest o

/-- The cells with byte b at offset o, in canonical form. -/
def writeCell : List Host.Cell → Nat → Byte → List Host.Cell
  | [], o, b => if b = Config.blankByte then [] else [(o, b)]
  | (k, c) :: rest, o, b =>
    if o < k then (if b = Config.blankByte then (k, c) :: rest else (o, b) :: (k, c) :: rest)
    else if o = k then (if b = Config.blankByte then rest else (o, b) :: rest)
    else (k, c) :: writeCell rest o b

/-- The offset is above the one before it, if there is one. -/
def aboveLow : Option Nat → Nat → Bool
  | none, _ => true
  | some l, o => decide (l < o)

/-- Every offset listed is above lo, the offsets rise strictly, and no byte listed is the blank byte. -/
def cellsRiseFrom : Option Nat → List Host.Cell → Bool
  | _, [] => true
  | lo, (k, b) :: rest =>
    aboveLow lo k && decide (b ≠ Config.blankByte) && cellsRiseFrom (some k) rest

/-- DMEM is in its canonical form. -/
def Memory.wf (m : Memory) : Bool := cellsRiseFrom none m.cells

/-- Every offset listed lies in a DMEM of n bytes (R38). -/
def Memory.within (m : Memory) (n : Nat) : Bool := m.cells.all fun c => decide (c.1 < n)

/-- DMEM[o]. -/
def Memory.readByte (m : Memory) (o : Nat) : Byte := readCell m.cells o

/-- DMEM[o] <- b. -/
def Memory.writeByte (m : Memory) (o : Nat) (b : Byte) : Memory := ⟨writeCell m.cells o b⟩

/-- `MemRead(a, n)`: the bytes DMEM[a .. a+n) (R12). -/
def memRead (m : Memory) (a : Nat) : Nat → ByteSeq
  | 0 => []
  | n + 1 => m.readByte a :: memRead m (a + 1) n

/-- `MemWrite(a, s)`: s to DMEM[a .. a+len(s)) (R12). -/
def memWrite (m : Memory) (a : Nat) : ByteSeq → Memory
  | [] => m
  | b :: rest => memWrite (m.writeByte a b) (a + 1) rest

/-- The DMEM of n bytes that a power-on draw leaves (R152, 93 I1). Offsets outside DMEM are none of its bytes. -/
def drawnMemory (n : Nat) : List Host.Cell → Memory
  | [] => Memory.empty
  | (o, b) :: rest => if o < n then (drawnMemory n rest).writeByte o b else drawnMemory n rest

/-- A DMEM region: an offset and a length (R48). -/
structure Region where
  addr : Nat
  len : Nat
  deriving DecidableEq, Repr

/-- The region is in bounds: a + n <= DMEM_BYTES, without wrap (R48). -/
def Region.inBounds (c : Config) (r : Region) : Bool := decide (r.addr + r.len ≤ c.dmemBytes)

/-- `MemRead` of a region. -/
def readRegion (m : Memory) (r : Region) : ByteSeq := memRead m r.addr r.len

/-! ## The result of a command -/

/-- The kinds of error (R133). -/
inductive ErrorKind where
  /-- FORMAT_ERROR: B32_DECODE's input is not a valid encoding (R134). -/
  | format
  /-- RANGE_ERROR: CMD.DIGITS is not in [1, 10] (R135). -/
  | range
  /-- INVARIANT_ERROR: reserved, no rule produces it (R136). -/
  | invariant
  /-- BOUNDS_ERROR: a region is outside DMEM (R75). -/
  | bounds
  /-- ILLEGAL_CMD: the word decodes ILLEGAL (R63). -/
  | illegalCmd
  deriving DecidableEq, Repr

/-- The ERR_CODE of an error kind (R133). Code 0 is OK. -/
def ErrorKind.toCode : ErrorKind → BitVec 4
  | .format => 1
  | .range => 2
  | .invariant => 3
  | .bounds => 4
  | .illegalCmd => 5

/-- The partial map from result registers to values that a command returns (R73); none leaves the register. OUT_LEN is
not in it: every successful command writes it (R77). -/
structure ResultWrites where
  truncOffset : Option Word := none
  truncP : Option Word := none
  code : Option Word := none
  digest : Option HashWords := none
  deriving DecidableEq, Repr

/-- What `Exec` returns (R73). -/
inductive ExecResult where
  /-- `Err(code)` -/
  | err (e : ErrorKind)
  /-- `Ok(o, out, res)` -/
  | ok (o : Nat) (out : ByteSeq) (res : ResultWrites)
  deriving DecidableEq, Repr

/-- The result registers after the writes of a successful command with an output of n bytes (R77, R78). -/
def Results.apply (r : Results) (n : Nat) (w : ResultWrites) : Results where
  outLen := BitVec.ofNat 32 n
  truncOffset := w.truncOffset.getD r.truncOffset
  truncP := w.truncP.getD r.truncP
  code := w.code.getD r.code
  digest := w.digest.getD r.digest

/-- The completion record: BUSY <- 0, DONE <- 1, ERR_CODE <- code (R77, R139). -/
def recordCompletion (code : BitVec 4) (s : State) : State :=
  { s with busy := false, done := true, errCode := code }

/-- The outputs of a successful command: the bytes at their offset, and the result registers (R77). -/
def storeOutputs (o : Nat) (out : ByteSeq) (res : ResultWrites) (s : State) : State :=
  { s with dmem := memWrite s.dmem o out, results := s.results.apply out.length res }

/-- The end of a command (R77): what Complete does once `Exec` has returned. An error writes no output (R76). -/
def finish (r : ExecResult) (s : State) : State :=
  match r with
  | .ok o out res => recordCompletion 0 (storeOutputs o out res s)
  | .err e => recordCompletion e.toCode s

/-- Acknowledge, the block's return from its trap entry, and the clearing of ACCESS_ERR: a write of v to STATUS clears
DONE if v[1] = 1 and ACCESS_ERR if v[2] = 1, and nothing else (R25, R142). -/
def writeStatus (v : Word) (s : State) : State :=
  { s with done := s.done && !v[1], accessErr := s.accessErr && !v[2] }

/-! ## Acceptance, refusal and reset -/

/-- Acceptance of a CMD word (R71). -/
def accept (v : Word) (s : State) : State :=
  { s with cmd := v, busy := true, done := false, errCode := 0 }

/-- The trace that a refused transaction leaves: ACCESS_ERR <- 1 (R46). -/
def setAccessErr (s : State) : State := { s with accessErr := true }

/-- Every register to its reset value; DMEM is left (R36, R153). -/
def resetRegisters (s : State) : State :=
  { s with
    irqEn := false, busy := false, done := false, accessErr := false, errCode := 0, cmd := 0,
    operands := Operands.reset, results := Results.reset }

/-- The power-on reset step (R152): every register, and DMEM as drawn. -/
def powerOnReset (draw : List Host.Cell) (s : State) : State :=
  { resetRegisters s with dmem := drawnMemory s.cfg.dmemBytes draw }

/-- A write of v to CTRL: bit 1 performs the soft reset and nothing else; otherwise IRQ_EN <- v[0] (R24, R153). -/
def writeCtrl (v : Word) (s : State) : State :=
  if v[1] then resetRegisters s else { s with irqEn := v[0] }

/-- The port answers the transaction. -/
def respond (r : Response) (s : State) : State := { s with response := some r }

end Sys2Proof.Machine
end

