-- ==== Sys2Proof/Machine/Flags.lean ====
section
/-! DEFINITION. The status bits of the block and what is computed from them: the CTRL and STATUS words (10_state.md
rules R24, R25), the interrupt output (60_exceptions.md rule R145) and the sequencer state (R35). The block has no
arithmetic flags (R33). -/

namespace Sys2Proof.Machine

/-- The value a CTRL read returns: IRQ_EN in bit 0; SOFT_RESET and the reserved bits read 0 (R24). -/
def ctrlWord (s : State) : Word := BitVec.ofNat 32 s.irqEn.toNat

/-- The value a STATUS read returns: ERR_CODE*16 + ACCESS_ERR*4 + DONE*2 + BUSY (R25). -/
def statusWord (s : State) : Word :=
  BitVec.ofNat 32 (s.errCode.toNat * 16 + s.accessErr.toNat * 4 + s.done.toNat * 2 + s.busy.toNat)

/-- The level interrupt output: IRQ_EN AND DONE (R145). -/
def irq (s : State) : Bool := s.irqEn && s.done

/-- The sequencer state (R35 (a)). -/
inductive Sequencer where
  | idle
  | run
  deriving DecidableEq, Repr

/-- RUN exactly when BUSY = 1 (R35). -/
def sequencer (s : State) : Sequencer := if s.busy then .run else .idle

end Sys2Proof.Machine
end

