-- ==== Sys2Proof/Machine/Operands.lean ====
section
/-! DEFINITION. The operands of the commands: their regions (30_encoding.md rule R62, 40_command.md rule R75), the HOTP
counter (10_state.md rule R29), the digit count (44_hotp.md rule R126), and the checks every command shares, in the
order of rule R74. -/

namespace Sys2Proof.Machine

/-- (SRC_ADDR, SRC_LEN). -/
def srcRegion (r : Operands) : Region := ⟨r.srcAddr.toNat, r.srcLen.toNat⟩

/-- (KEY_ADDR, KEY_LEN). -/
def keyRegion (r : Operands) : Region := ⟨r.keyAddr.toNat, r.keyLen.toNat⟩

/-- (SRC_ADDR, 20), the digest HOTP_TRUNCATE reads; SRC_LEN is ignored (R62). -/
def srcDigestRegion (r : Operands) : Region := ⟨r.srcAddr.toNat, 20⟩

/-- (DST_ADDR, n). -/
def dstRegion (r : Operands) (n : Nat) : Region := ⟨r.dstAddr.toNat, n⟩

/-- The length of the Base32 text of L bytes: 8 * ceil(L / 5) (R113). -/
def b32TextLength (L : Nat) : Nat := 8 * ((L + 4) / 5)

/-- The HOTP counter C = COUNTER_HI * 2^32 + COUNTER_LO (R29). -/
def counter (r : Operands) : BitVec 64 :=
  BitVec.ofNat 64 (r.counterHi.toNat * 2 ^ 32 + r.counterLo.toNat)

/-- The digit count is in [1, 10] (R126). -/
def digitsInRange (digits : Nat) : Bool := decide (1 ≤ digits ∧ digits ≤ 10)

/-- RANGE_ERROR unless the digit count is in [1, 10]: step 2 of rule R74. -/
def checkDigits (digits : Nat) (k : ExecResult) : ExecResult :=
  if digitsInRange digits then k else .err .range

/-- BOUNDS_ERROR at the first region that is out of bounds: steps 3, 4 and 6 of rule R74. -/
def checkRegions (c : Config) : List Region → ExecResult → ExecResult
  | [], k => k
  | r :: rest, k => if r.inBounds c then checkRegions c rest k else .err .bounds

end Sys2Proof.Machine
end

