-- ==== Sys2Proof/Machine/Base32.lean ====
section
/-! DEFINITION. The Base32 encoder and decoder (43_base32.md) and the B32_ENCODE and B32_DECODE commands. -/

namespace Sys2Proof.Machine

/-! ## Alphabet and bit order -/

/-- `ALPHA[v]`: A to Z for 0 to 25, 2 to 7 for 26 to 31 (R110). -/
def b32Char (v : Nat) : Byte := if v < 26 then BitVec.ofNat 8 (v + 0x41) else BitVec.ofNat 8 (v + 0x18)

/-- `val(b)` of an alphabet byte; none for every other byte (R110). -/
def b32Value (b : Byte) : Option Nat :=
  if 0x41 ≤ b.toNat ∧ b.toNat ≤ 0x5A then some (b.toNat - 0x41)
  else if 0x32 ≤ b.toNat ∧ b.toNat ≤ 0x37 then some (b.toNat - 0x18)
  else none

/-- The padding character `=` (R110). -/
def padChar : Byte := 0x3D

/-- The k bits of a number, most significant first (R111). -/
def bitsOf (k v : Nat) : List Bool := (List.range k).map fun i => v.testBit (k - 1 - i)

/-- The value of bits in stream order (R111). -/
def bitsValue (bits : List Bool) : Nat := bits.foldl (fun v b => 2 * v + b.toNat) 0

/-- The first n groups of k bits of a stream, as values (R111). -/
def groupValues (k : Nat) : Nat → List Bool → List Nat
  | 0, _ => []
  | n + 1, bits => bitsValue (bits.take k) :: groupValues k n (bits.drop k)

/-- The bitstream of a byte sequence (R111). -/
def bitstream (s : ByteSeq) : List Bool := s.flatMap fun b => bitsOf 8 b.toNat

/-! ## Encoder -/

/-- The number of quintets of L bytes: ceil(8L / 5) (R112). -/
def quintetCount (L : Nat) : Nat := (8 * L + 4) / 5

/-- `encode(s)` (R112). -/
def b32Encode (s : ByteSeq) : ByteSeq :=
  let q := quintetCount s.length
  let bits := bitstream s ++ List.replicate (5 * q - 8 * s.length) false
  (groupValues 5 q bits).map b32Char ++ bytesOf ((8 - q % 8) % 8) padChar

/-! ## Decoder -/

/-- p, the number of trailing `=` bytes (R114). -/
def padCount (s : ByteSeq) : Nat := (s.reverse.takeWhile fun b => b == padChar).length

/-- n, the number of bytes before the trailing run of `=` (R114). -/
def textCount (s : ByteSeq) : Nat := s.length - padCount s

/-- The input is a valid encoding: (V1) to (V4) of rule R114. -/
def b32Valid (s : ByteSeq) : Bool :=
  decide (s.length % 8 = 0)
  && (s.take (textCount s)).all (fun b => (b32Value b).isSome)
  && [0, 2, 4, 5, 7].contains (textCount s % 8)
  && decide (padCount s = (8 - textCount s % 8) % 8)

/-- `decode(s)` of a valid input (R115). The last 5n - 8m bits are discarded unchecked (R117). -/
def b32Decode (s : ByteSeq) : ByteSeq :=
  let n := textCount s
  let bits := (s.take n).flatMap fun b => bitsOf 5 ((b32Value b).getD 0)
  (groupValues 8 (5 * n / 8) bits).map (BitVec.ofNat 8)

/-! ## The commands -/

/-- `Exec` of B32_ENCODE (R73, R75, R120). -/
def evalB32Encode (c : Config) (r : Operands) (m : Memory) : ExecResult :=
  checkRegions c [srcRegion r, dstRegion r (b32TextLength r.srcLen.toNat)] <|
    .ok r.dstAddr.toNat (b32Encode (readRegion m (srcRegion r))) {}

/-- B32_ENCODE runs to its completion (R77, R120). -/
def execB32Encode (s : State) : Host.Outcome State Fault Refusal :=
  .next (finish (evalB32Encode s.cfg s.operands s.dmem) s)

/-- `Exec` of B32_DECODE: its input region, its format, then its output region (R73, R74, R121). -/
def evalB32Decode (c : Config) (r : Operands) (m : Memory) : ExecResult :=
  checkRegions c [srcRegion r] <|
    let text := readRegion m (srcRegion r)
    if b32Valid text then
      checkRegions c [dstRegion r (b32Decode text).length] (.ok r.dstAddr.toNat (b32Decode text) {})
    else .err .format

/-- B32_DECODE runs to its completion (R77, R121). -/
def execB32Decode (s : State) : Host.Outcome State Fault Refusal :=
  .next (finish (evalB32Decode s.cfg s.operands s.dmem) s)

end Sys2Proof.Machine
end

