-- ==== Sys2Proof/Machine/Sha1.lean ====
section
/-! DEFINITION. The SHA-1 hash engine (41_sha1.md) and the SHA1 command. -/

namespace Sys2Proof.Machine

/-! ## Padding -/

/-- The zero bytes that padding appends: (55 - L) mod 64, computed without a negative number (R85). -/
def padZeros (L : Nat) : Nat := (119 - L % 64) % 64

/-- `pad(M)` (R85). -/
def pad (m : ByteSeq) : ByteSeq :=
  m ++ [0x80] ++ bytesOf (padZeros m.length) 0x00 ++ be64bytes (BitVec.ofNat 64 (8 * m.length))

/-- The block count N = floor((L + 8) / 64) + 1 (R86). -/
def blockCount (L : Nat) : Nat := (L + 8) / 64 + 1

/-- Block blk of a padded message: P[64*blk .. 64*blk+64) (R97). -/
def blockAt (p : ByteSeq) (blk : Nat) : ByteSeq := (p.drop (64 * blk)).take 64

/-! ## One block -/

/-- H_INIT (R88). -/
def hInit : HashWords := ⟨0x67452301, 0xEFCDAB89, 0x98BADCFE, 0x10325476, 0xC3D2E1F0⟩

/-- W[0] to W[15] of a 64-byte block: be32(X[4t .. 4t+4)) (R89). -/
def blockWords (x : ByteSeq) : List Word :=
  (List.range 16).map fun t => be32 ((x.drop (4 * t)).take 4)

/-- W[t] from the schedule words before it (R90); `w` is W[0 .. t). -/
def nextWord (w : List Word) : Word :=
  let t := w.length
  rotl32 (w.getD (t - 3) 0 ^^^ w.getD (t - 8) 0 ^^^ w.getD (t - 14) 0 ^^^ w.getD (t - 16) 0) 1

/-- The schedule grown by k words (R90). -/
def expand : Nat → List Word → List Word
  | 0, w => w
  | k + 1, w => expand k (w ++ [nextWord w])

/-- W[0 .. 80) of a block (R89, R90). -/
def schedule (x : ByteSeq) : List Word := expand 64 (blockWords x)

/-- choose, for rounds 0 to 19 (R91). -/
def fChoose (b c d : Word) : Word := (b &&& c) ||| (~~~b &&& d)

/-- parity, for rounds 20 to 39 and 60 to 79 (R91). -/
def fParity (b c d : Word) : Word := b ^^^ c ^^^ d

/-- majority, for rounds 40 to 59 (R91). -/
def fMajority (b c d : Word) : Word := (b &&& c) ||| (b &&& d) ||| (c &&& d)

/-- f_t(B, C, D) (R91). -/
def roundFunction (t : Nat) (b c d : Word) : Word :=
  if t < 20 then fChoose b c d
  else if t < 40 then fParity b c d
  else if t < 60 then fMajority b c d
  else fParity b c d

/-- K_t (R92). -/
def roundConstant (t : Nat) : Word :=
  if t < 20 then 0x5A827999
  else if t < 40 then 0x6ED9EBA1
  else if t < 60 then 0x8F1BBCDC
  else 0xCA62C1D6

/-- The working words A to E (R34, R93). -/
structure Working where
  a : Word
  b : Word
  c : Word
  d : Word
  e : Word
  deriving DecidableEq, Repr

/-- TEMP of round t (R93). -/
def roundTemp (t : Nat) (w : Word) (x : Working) : Word :=
  rotl32 x.a 5 + roundFunction t x.b x.c x.d + x.e + w + roundConstant t

/-- Round t, a parallel update of the five words (R93). -/
def roundStep (t : Nat) (w : Word) (x : Working) : Working where
  a := roundTemp t w x
  b := x.a
  c := rotl32 x.b 30
  d := x.c
  e := x.d

/-- The rounds t, t+1, ... with the schedule words given (R94). -/
def rounds : Nat → List Word → Working → Working
  | _, [], x => x
  | t, w :: ws, x => rounds (t + 1) ws (roundStep t w x)

/-- A to E take H[0] to H[4] before round 0 (R94). -/
def loadWorking (h : HashWords) : Working := ⟨h.h0, h.h1, h.h2, h.h3, h.h4⟩

/-- The feed-forward addition after round 79 (R95). -/
def feedForward (h : HashWords) (x : Working) : HashWords :=
  ⟨h.h0 + x.a, h.h1 + x.b, h.h2 + x.c, h.h3 + x.d, h.h4 + x.e⟩

/-- `compress(H, X)` (R96). -/
def compress (h : HashWords) (x : ByteSeq) : HashWords :=
  feedForward h (rounds 0 (schedule x) (loadWorking h))

/-! ## The function -/

/-- The blocks blk, blk+1, ... of a padded message, n of them, in order (R97). -/
def hashBlocks (p : ByteSeq) : Nat → Nat → HashWords → HashWords
  | 0, _, h => h
  | n + 1, blk, h => hashBlocks p n (blk + 1) (compress h (blockAt p blk))

/-- `sha1(M)` (R84). -/
def sha1 (m : ByteSeq) : ByteSeq :=
  digestBytes (hashBlocks (pad m) ((pad m).length / 64) 0 hInit)

/-! ## The command -/

/-- `Exec` of SHA1 (R73, R75, R100). -/
def evalSha1 (c : Config) (r : Operands) (m : Memory) : ExecResult :=
  checkRegions c [srcRegion r, dstRegion r 20] <|
    let dg := sha1 (readRegion m (srcRegion r))
    .ok r.dstAddr.toNat dg { digest := some (digestWords dg) }

/-- SHA1 runs to its completion (R77, R100). -/
def execSha1 (s : State) : Host.Outcome State Fault Refusal :=
  .next (finish (evalSha1 s.cfg s.operands s.dmem) s)

end Sys2Proof.Machine
end

