-- ==== Sys2Proof/Machine/Hmac.lean ====
section
/-! DEFINITION. HMAC-SHA-1 (42_hmac.md) and the PREPARE_KEY and HMAC_SHA1 commands. -/

namespace Sys2Proof.Machine

/-- `prepare_key(key)`: 64 bytes (R101). -/
def prepareKey (key : ByteSeq) : ByteSeq :=
  if key.length > 64 then zeroPadRight (sha1 key) 64
  else if key.length < 64 then zeroPadRight key 64
  else key

/-- inner_pad of a prepared key (R104). -/
def innerPad (k : ByteSeq) : ByteSeq := xorBytes k 0x36

/-- outer_pad of a prepared key (R104). -/
def outerPad (k : ByteSeq) : ByteSeq := xorBytes k 0x5C

/-- `hmac(key, message)`: the inner pass, then the outer pass (R105). -/
def hmac (key msg : ByteSeq) : ByteSeq :=
  sha1 (outerPad (prepareKey key) ++ sha1 (innerPad (prepareKey key) ++ msg))

/-- `Exec` of PREPARE_KEY (R73, R75, R108). -/
def evalPrepareKey (c : Config) (r : Operands) (m : Memory) : ExecResult :=
  checkRegions c [keyRegion r, dstRegion r 64] <|
    .ok r.dstAddr.toNat (prepareKey (readRegion m (keyRegion r))) {}

/-- PREPARE_KEY runs to its completion (R77, R108). -/
def execPrepareKey (s : State) : Host.Outcome State Fault Refusal :=
  .next (finish (evalPrepareKey s.cfg s.operands s.dmem) s)

/-- `Exec` of HMAC_SHA1 (R73, R75, R109). -/
def evalHmacSha1 (c : Config) (r : Operands) (m : Memory) : ExecResult :=
  checkRegions c [keyRegion r, srcRegion r, dstRegion r 20] <|
    let mac := hmac (readRegion m (keyRegion r)) (readRegion m (srcRegion r))
    .ok r.dstAddr.toNat mac { digest := some (digestWords mac) }

/-- HMAC_SHA1 runs to its completion (R77, R109). -/
def execHmacSha1 (s : State) : Host.Outcome State Fault Refusal :=
  .next (finish (evalHmacSha1 s.cfg s.operands s.dmem) s)

end Sys2Proof.Machine
end

