-- ==== Sys2Proof/Machine/Hotp.lean ====
section
/-! DEFINITION. HOTP (44_hotp.md) and the HOTP_TRUNCATE and HOTP commands. -/

namespace Sys2Proof.Machine

/-- The truncation offset: the low nibble of the last digest byte (R124). -/
def truncationOffset (hs : ByteSeq) : Nat := (byteAt hs 19 &&& 0x0F).toNat

/-- p, the 31-bit value at the truncation offset, the top bit of its first byte masked (R125). -/
def truncatedValue (hs : ByteSeq) : Nat :=
  let o := truncationOffset hs
  (byteAt hs o &&& 0x7F).toNat * 2 ^ 24 + (byteAt hs (o + 1)).toNat * 2 ^ 16
    + (byteAt hs (o + 2)).toNat * 2 ^ 8 + (byteAt hs (o + 3)).toNat

/-- d = p mod 10^digits (R127). -/
def codeValue (hs : ByteSeq) (digits : Nat) : Nat := truncatedValue hs % 10 ^ digits

/-- `render(d, digits)`: decimal, most significant digit first, left-zero-padded (R128). -/
def renderCode (d digits : Nat) : ByteSeq :=
  (List.range digits).map fun i => BitVec.ofNat 8 (0x30 + d / 10 ^ (digits - 1 - i) % 10)

/-- The HMAC value of HOTP: the counter packed big-endian in 8 bytes is the message (R122, R123). -/
def hotpHmac (key : ByteSeq) (ctr : BitVec 64) : ByteSeq := hmac key (be64bytes ctr)

/-- The writes of TRUNC_OFFSET, TRUNC_P and CODE for a digest (R78). -/
def truncationWrites (hs : ByteSeq) (digits : Nat) : ResultWrites where
  truncOffset := some (BitVec.ofNat 32 (truncationOffset hs))
  truncP := some (BitVec.ofNat 32 (truncatedValue hs))
  code := some (BitVec.ofNat 32 (codeValue hs digits))

/-- `Exec` of HOTP_TRUNCATE (R73, R75, R131). -/
def evalHotpTruncate (digits : Nat) (c : Config) (r : Operands) (m : Memory) : ExecResult :=
  checkDigits digits <| checkRegions c [srcDigestRegion r, dstRegion r digits] <|
    let hs := readRegion m (srcDigestRegion r)
    .ok r.dstAddr.toNat (renderCode (codeValue hs digits) digits) (truncationWrites hs digits)

/-- HOTP_TRUNCATE runs to its completion (R77, R131). -/
def execHotpTruncate (digits : Nat) (s : State) : Host.Outcome State Fault Refusal :=
  .next (finish (evalHotpTruncate digits s.cfg s.operands s.dmem) s)

/-- `Exec` of HOTP (R73, R75, R129, R132). -/
def evalHotp (digits : Nat) (c : Config) (r : Operands) (m : Memory) : ExecResult :=
  checkDigits digits <| checkRegions c [keyRegion r, dstRegion r digits] <|
    let hs := hotpHmac (readRegion m (keyRegion r)) (counter r)
    .ok r.dstAddr.toNat (renderCode (codeValue hs digits) digits)
      { truncationWrites hs digits with digest := some (digestWords hs) }

/-- HOTP runs to its completion (R77, R132). -/
def execHotp (digits : Nat) (s : State) : Host.Outcome State Fault Refusal :=
  .next (finish (evalHotp digits s.cfg s.operands s.dmem) s)

end Sys2Proof.Machine
end

