-- ==== Sys2Proof/Machine/Dispatch.lean ====
section
/-! DEFINITION. Which meaning each command has. `exec i s` is the engine's Complete step (40_command.md rule R77) for a
CMD word that decodes to i; `step` takes it only while BUSY = 1. -/

namespace Sys2Proof.Machine

def exec (i : Instr) (s : State) : Host.Outcome State Fault Refusal :=
  match i with
  | .sha1 => Sys2Proof.Machine.execSha1 s
  | .prepareKey => Sys2Proof.Machine.execPrepareKey s
  | .hmacSha1 => Sys2Proof.Machine.execHmacSha1 s
  | .b32Encode => Sys2Proof.Machine.execB32Encode s
  | .b32Decode => Sys2Proof.Machine.execB32Decode s
  | .hotpTruncate digits => Sys2Proof.Machine.execHotpTruncate digits s
  | .hotp digits => Sys2Proof.Machine.execHotp digits s

end Sys2Proof.Machine
end

