-- ==== Sys2Proof/Machine/HostPort.lean ====
section
/-! DEFINITION. The host port: the register map and its access types (10_state.md rules R21 to R31), the address map and
the checks of a transaction (20_memory.md rules R39 to R43), the byte lanes (R44), the busy lock (R46). -/

namespace Sys2Proof.Machine

/-! ## The register map -/

/-- The block-relative byte offset of a register (R21). -/
def Reg.offset : Reg → Nat
  | .id => 0x000
  | .version => 0x004
  | .config => 0x008
  | .ctrl => 0x00C
  | .status => 0x010
  | .cmd => 0x014
  | .srcAddr => 0x020
  | .srcLen => 0x024
  | .keyAddr => 0x028
  | .keyLen => 0x02C
  | .dstAddr => 0x030
  | .counterLo => 0x034
  | .counterHi => 0x038
  | .outLen => 0x040
  | .truncOffset => 0x044
  | .truncP => 0x048
  | .code => 0x04C
  | .digest0 => 0x050
  | .digest1 => 0x054
  | .digest2 => 0x058
  | .digest3 => 0x05C
  | .digest4 => 0x060

/-- The 22 registers (R21). -/
def allRegs : List Reg :=
  [.id, .version, .config, .ctrl, .status, .cmd, .srcAddr, .srcLen, .keyAddr, .keyLen, .dstAddr, .counterLo,
   .counterHi, .outLen, .truncOffset, .truncP, .code, .digest0, .digest1, .digest2, .digest3, .digest4]

/-- The register at an offset, if the offset hits one (R21). -/
def regAt (a : Nat) : Option Reg := allRegs.find? fun r => r.offset == a

/-- What a read of a register returns (R22 to R31). -/
def readReg (r : Reg) (s : State) : Word :=
  match r with
  | .id => 0x54505331
  | .version => 0x00010000
  | .config => BitVec.ofNat 32 s.cfg.dmemBytes
  | .ctrl => ctrlWord s
  | .status => statusWord s
  | .cmd => s.cmd
  | .srcAddr => s.operands.srcAddr
  | .srcLen => s.operands.srcLen
  | .keyAddr => s.operands.keyAddr
  | .keyLen => s.operands.keyLen
  | .dstAddr => s.operands.dstAddr
  | .counterLo => s.operands.counterLo
  | .counterHi => s.operands.counterHi
  | .outLen => s.results.outLen
  | .truncOffset => s.results.truncOffset
  | .truncP => s.results.truncP
  | .code => s.results.code
  | .digest0 => s.results.digest.h0
  | .digest1 => s.results.digest.h1
  | .digest2 => s.results.digest.h2
  | .digest3 => s.results.digest.h3
  | .digest4 => s.results.digest.h4

/-- What a write that is not refused does to a register: an RO register ignores it, CTRL and STATUS take their bits, a
CMD write starts a command, an operand register stores all 32 bits (R22, R24, R25, R27, R28, R45, R71). -/
def writeReg (r : Reg) (v : Word) (s : State) : State :=
  match r with
  | .id => s
  | .version => s
  | .config => s
  | .ctrl => writeCtrl v s
  | .status => writeStatus v s
  | .cmd => accept v s
  | .srcAddr => { s with operands := { s.operands with srcAddr := v } }
  | .srcLen => { s with operands := { s.operands with srcLen := v } }
  | .keyAddr => { s with operands := { s.operands with keyAddr := v } }
  | .keyLen => { s with operands := { s.operands with keyLen := v } }
  | .dstAddr => { s with operands := { s.operands with dstAddr := v } }
  | .counterLo => { s with operands := { s.operands with counterLo := v } }
  | .counterHi => { s with operands := { s.operands with counterHi := v } }
  | .outLen => s
  | .truncOffset => s
  | .truncP => s
  | .code => s
  | .digest0 => s
  | .digest1 => s
  | .digest2 => s
  | .digest3 => s
  | .digest4 => s

/-- The registers whose writes are refused while BUSY = 1: CMD and the operand registers (R46). -/
def writeLocked : Reg → Bool
  | .cmd => true
  | .srcAddr => true
  | .srcLen => true
  | .keyAddr => true
  | .keyLen => true
  | .dstAddr => true
  | .counterLo => true
  | .counterHi => true
  | .id => false
  | .version => false
  | .config => false
  | .ctrl => false
  | .status => false
  | .outLen => false
  | .truncOffset => false
  | .truncP => false
  | .code => false
  | .digest0 => false
  | .digest1 => false
  | .digest2 => false
  | .digest3 => false
  | .digest4 => false

/-! ## The address map -/

/-- n of rule R40. -/
def AccessSize.bytes : AccessSize → Nat
  | .byte => 1
  | .half => 2
  | .word => 4

/-- Where a well-formed transaction goes. -/
inductive Target where
  | reg (r : Reg)
  /-- DMEM at an engine offset. -/
  | dmem (o : Nat)
  deriving DecidableEq, Repr

/-- The host offset of DMEM byte 0 (R38, R39). -/
def dmemBase : Nat := 0x00010000

/-- The checks of rules R41, R42 and R43, in the windows of rule R39: none is a malformed transaction. -/
def target (c : Config) (a : Word) (n : AccessSize) : Option Target :=
  if a.toNat < dmemBase then
    if n = .word ∧ a.toNat % 4 = 0 then (regAt a.toNat).map .reg else none
  else if a.toNat < dmemBase + c.dmemBytes then
    if a.toNat % n.bytes = 0 then some (.dmem (a.toNat - dmemBase)) else none
  else none

/-! ## The byte lanes -/

/-- A byte sequence as a number, byte 0 least significant: sum of s[i] * 2^(8i) (R44). -/
def leValue : ByteSeq → Nat
  | [] => 0
  | b :: rest => b.toNat + 256 * leValue rest

/-- The n low bytes of a word, byte 0 least significant (R44). -/
def leBytes (n : Nat) (v : Word) : ByteSeq := (List.range n).map fun i => byteOf v.toNat i

/-! ## The transactions -/

/-- Refused while BUSY = 1 (R46). -/
def refuse (s : State) : State := respond .busError (setAccessErr s)

/-- `Read(a, n)` (R40 to R47). -/
def hostRead (a : Word) (n : AccessSize) (s : State) : State :=
  match target s.cfg a n with
  | none => respond .busError s
  | some (.reg r) => respond (.data (readReg r s)) s
  | some (.dmem o) =>
    if s.busy then refuse s
    else respond (.data (BitVec.ofNat 32 (leValue (memRead s.dmem o n.bytes)))) s

/-- `Write(a, n, v)` (R40 to R47). -/
def hostWrite (a : Word) (n : AccessSize) (v : Word) (s : State) : State :=
  match target s.cfg a n with
  | none => respond .busError s
  | some (.reg r) => if s.busy && writeLocked r then refuse s else respond .ok (writeReg r v s)
  | some (.dmem o) =>
    if s.busy then refuse s
    else respond .ok { s with dmem := memWrite s.dmem o (leBytes n.bytes v) }

/-- A transaction, one atomic step of the host (R40, R52). -/
def hostStep (t : Transaction) (s : State) : State :=
  match t with
  | .read a n => hostRead a n s
  | .write a n v => hostWrite a n v s

end Sys2Proof.Machine
end

