-- ==== Sys2Proof/Machine/Step.lean ====
section
/-! DEFINITION. One step of the machine: the agent whose turn it is takes its step (40_command.md rule R70). The block
fetches nothing (10_state.md rule R32); the word a command runs from is CMD (rule R77). -/

namespace Sys2Proof.Machine

/-- The engine's Complete step, enabled exactly when BUSY = 1 (R70, R77). While BUSY = 0 the engine's turn passes and
nothing changes (log entry 4). An ILLEGAL word completes with ILLEGAL_CMD (R64, R74). -/
def engineTurn (s : State) : Host.Outcome State Fault Refusal :=
  if s.busy then
    match decode s.cmd with
    | .ok i => exec i s
    | .error _ => .next (finish (.err .illegalCmd) s)
  else .next s

/-- One step. The first pending event is taken. With nothing pending it is the engine's turn, so an accepted command
completes after finitely many steps (R80); with nothing pending and BUSY = 0 the block is idle and nothing changes
(R151; log entry 4). -/
def step (s : State) : Host.Outcome State Fault Refusal :=
  match s.pending with
  | [] => engineTurn s
  | .host t :: rest => .next (hostStep t { s with pending := rest })
  | .complete :: rest => engineTurn { s with pending := rest }
  | .powerOn draw :: rest => .next (powerOnReset draw { s with pending := rest })

/-- s with the CMD word w accepted (R71) and the engine's turn next, so that the very next step runs it (log entry 6).
The table numbers a CMD word's bits as the word does; bits from nbits up are 0. -/
def State.withFetchWord (s : State) (nbits w : Nat) : State :=
  { accept (BitVec.ofNat 32 (w % 2 ^ nbits)) s with pending := .complete :: s.pending }

end Sys2Proof.Machine
end

