-- ==== Sys2Proof/Machine/Asm.lean ====
section
/-! DEFINITION. The textual notation of 30_encoding.md section 3 (rules R67 to R69) as data: each line of a host program
and the transactions it stands for. A program's transactions become events of `State.pending`. -/

namespace Sys2Proof.Machine

/-- The address that a register name stands for (R67). -/
def regAddress (r : Reg) : Word := BitVec.ofNat 32 r.offset

/-- `DMEM+o` (R67). -/
def dmemAddress (o : Nat) : Word := BitVec.ofNat 32 (dmemBase + o)

/-- `wr32 NAME, v` (R67). -/
def writeWord (r : Reg) (v : Word) : Transaction := .write (regAddress r) .word v

/-- A line of a host program (R67 to R69). -/
inductive HostLine where
  /-- `rd8 A`, `rd16 A`, `rd32 A` -/
  | rd (n : AccessSize) (a : Word)
  /-- `wr8 A, V`, `wr16 A, V`, `wr32 A, V` -/
  | wr (n : AccessSize) (a : Word) (v : Word)
  /-- `sha1`, `prepkey`, `hmac`, `b32enc`, `b32dec`, `htrunc d`, `hotp d` (R68). d is from 0 to 15; a line with a greater
  d writes what `encode` gives it (log entry 14). -/
  | command (i : Instr)
  /-- `src a, n` -/
  | src (a n : Word)
  /-- `key a, n` -/
  | key (a n : Word)
  /-- `dst a` -/
  | dst (a : Word)
  /-- `ctr v` -/
  | ctr (v : BitVec 64)
  /-- `put o, b0 b1 ... bk` -/
  | put (o : Nat) (bs : ByteSeq)
  /-- `puts o, "text"`. The text is ASCII; any other character gives what `ascii` gives it (log entry 12). -/
  | puts (o : Nat) (text : List Char)
  /-- `wait`: the loop's trip count is the host's and depends on the interleaving (R69, R82); here it has read BUSY = 1
  `polls` times before the read that ends it. -/
  | wait (polls : Nat)
  /-- `ack` -/
  | ack
  /-- `run c`, c a command line as above. -/
  | run (i : Instr) (polls : Nat)
  /-- `get o, n` -/
  | get (o n : Nat)
  deriving DecidableEq, Repr

/-- One wr8 per byte, in order (R69). -/
def putBytes (o : Nat) : ByteSeq → List Transaction
  | [] => []
  | b :: rest => .write (dmemAddress o) .byte (b.setWidth 32) :: putBytes (o + 1) rest

/-- The expansion of a command mnemonic: `wr32 CMD, word` (R68). -/
def commandWrite (i : Instr) : Transaction := writeWord .cmd (encode i)

/-- One read of STATUS. -/
def statusRead : Transaction := .read (regAddress .status) .word

/-- The transactions of a line (R67, R68, R69). -/
def HostLine.transactions : HostLine → List Transaction
  | .rd n a => [.read a n]
  | .wr n a v => [.write a n v]
  | .command i => [commandWrite i]
  | .src a n => [writeWord .srcAddr a, writeWord .srcLen n]
  | .key a n => [writeWord .keyAddr a, writeWord .keyLen n]
  | .dst a => [writeWord .dstAddr a]
  | .ctr v => [writeWord .counterLo (v.extractLsb' 0 32), writeWord .counterHi (v.extractLsb' 32 32)]
  | .put o bs => putBytes o bs
  | .puts o text => putBytes o (text.map ascii)
  | .wait polls => List.replicate (polls + 1) statusRead
  | .ack => [writeWord .status 0x00000002]
  | .run i polls => commandWrite i :: List.replicate (polls + 1) statusRead
  | .get o n => (List.range n).map fun i => .read (dmemAddress (o + i)) .byte

/-- The transactions of a program, in order. -/
def programTransactions (p : List HostLine) : List Transaction := p.flatMap HostLine.transactions

end Sys2Proof.Machine
end

