-- ==== Sys2Proof/Machine/Sequencer.lean ====
section
/-! DEFINITION. The engine's hidden state and the reference decomposition of one SHA-1 pass into phases (10_state.md
rules R34, R35, 41_sha1.md rule R99), and the passes that each command makes (42_hmac.md rule R106,
70_reset_and_hazards.md rule R162). No host transaction can observe any of it and its value between commands is
unspecified, so it is no part of State (log entry 5): a pass starts from ANY hidden state. -/

namespace Sys2Proof.Machine

/-- The HashState of one SHA-1 pass (R34). -/
structure HashState where
  /-- H[0..4] -/
  h : HashWords
  /-- The schedule words filled so far, W[0] first. -/
  w : List Word
  /-- A, B, C, D, E -/
  work : Working
  /-- The round index, 0 to 80. -/
  t : Nat
  /-- The index of the 512-bit block being processed. -/
  blk : Nat
  deriving DecidableEq, Repr

/-- The phases of rule R99. -/
inductive Phase where
  | init
  | load
  | expand
  | round
  | feed
  | out
  deriving DecidableEq, Repr

/-- The engine inside one SHA-1 pass: its phase and its HashState. -/
structure Pass where
  phase : Phase
  hash : HashState
  deriving DecidableEq, Repr

/-- One phase step of a pass over message m (R99). DESIGN CHOICE (log entry 13): the list of R99 gives A..E <- H[0..4]
(R94) and t <- 0 no phase, and here EXPAND does both; EXPAND fills W[16..79] at once, which R99 allows; a step of ROUND is
one round, so a block takes 83 steps; LOAD drops the schedule words of the block before; OUT is the end and is kept. -/
def passStep (m : ByteSeq) (p : Pass) : Pass :=
  let x := p.hash
  match p.phase with
  | .init => ⟨.load, { x with h := hInit, blk := 0 }⟩
  | .load => ⟨.expand, { x with w := blockWords (blockAt (pad m) x.blk) }⟩
  | .expand => ⟨.round, { x with w := expand 64 x.w, work := loadWorking x.h, t := 0 }⟩
  | .round =>
    ⟨if x.t + 1 < 80 then .round else .feed,
      { x with work := roundStep x.t (x.w.getD x.t 0) x.work, t := x.t + 1 }⟩
  | .feed =>
    ⟨if x.blk + 1 < blockCount m.length then .load else .out,
      { x with h := feedForward x.h x.work, blk := x.blk + 1 }⟩
  | .out => p

/-- n phase steps. -/
def passRun (m : ByteSeq) : Nat → Pass → Pass
  | 0, p => p
  | n + 1, p => passRun m n (passStep m p)

/-- The phase steps of a whole pass over L bytes: INIT, then LOAD, EXPAND, 80 rounds and FEED for each block (log entry
13). -/
def passLength (L : Nat) : Nat := 1 + 83 * blockCount L

/-- The digest that OUT leaves (R98, R99). -/
def passDigest (p : Pass) : ByteSeq := digestBytes p.hash.h

/-! ## The passes of a command -/

/-- The pass that a long key makes; a key of at most 64 bytes makes none (R101, R106). -/
def keyPasses (key : ByteSeq) : List ByteSeq := if key.length > 64 then [key] else []

/-- The message of the inner pass (R105). -/
def innerMessage (key msg : ByteSeq) : ByteSeq := innerPad (prepareKey key) ++ msg

/-- The message of the outer pass, the outer pad and the inner digest (R35 (c), R105). -/
def outerMessage (key msg : ByteSeq) : ByteSeq := outerPad (prepareKey key) ++ sha1 (innerMessage key msg)

/-- The passes of an HMAC, in order, which reuse one HashState (R35 (b)). -/
def hmacPasses (key msg : ByteSeq) : List ByteSeq := keyPasses key ++ [innerMessage key msg, outerMessage key msg]

/-- The messages that a command which raises no error hashes, one SHA-1 pass each, in order (R35 (b), R162). -/
def commandPasses (i : Instr) (r : Operands) (m : Memory) : List ByteSeq :=
  match i with
  | .sha1 => [readRegion m (srcRegion r)]
  | .prepareKey => keyPasses (readRegion m (keyRegion r))
  | .hmacSha1 => hmacPasses (readRegion m (keyRegion r)) (readRegion m (srcRegion r))
  | .b32Encode => []
  | .b32Decode => []
  | .hotpTruncate _ => []
  | .hotp _ => hmacPasses (readRegion m (keyRegion r)) (be64bytes (counter r))

/-- The compression calls of a command: the blocks of all its passes (R106, R162). -/
def compressionCalls (i : Instr) (r : Operands) (m : Memory) : Nat :=
  ((commandPasses i r m).map fun msg => blockCount msg.length).sum

end Sys2Proof.Machine
end

