-- ==== Sys2Proof/Safety.lean ====
section
/-! DEFINITION. What a well-behaved state and a run are, and the terms the statements use. -/

namespace Sys2Proof.Machine

/-! ## The invariant -/

/-- DMEM is in canonical form and lists no offset outside DMEM (R38). -/
def State.dmemSound (s : State) : Bool := s.dmem.wf && s.dmem.within s.cfg.dmemBytes

/-- Invariant (a) of rule R26: BUSY = 1 implies DONE = 0 and ERR_CODE = 0. -/
def State.statusSound (s : State) : Bool := !s.busy || (!s.done && s.errCode == 0)

/-- ERR_CODE holds a code that some rule produces: not 3 and not 6 to 15 (R133, R136). -/
def State.errCodeProduced (s : State) : Bool := [0, 1, 2, 4, 5].contains s.errCode

/-- The ranges of the result registers (R30), and OUT_LEN at most DMEM_BYTES. -/
def State.resultsSound (s : State) : Bool :=
  decide (s.results.truncOffset.toNat ≤ 15) && decide (s.results.truncP.toNat < 2 ^ 31)
    && decide (s.results.code.toNat ≤ s.results.truncP.toNat)
    && decide (s.results.outLen.toNat ≤ s.cfg.dmemBytes)

/-- The invariant that every step keeps. -/
def State.sound (s : State) : Bool :=
  s.dmemSound && s.statusSound && s.errCodeProduced && s.resultsSound

/-! ## Runs -/

/-- The state after n steps; none where one of them faults or is refused. -/
def State.after : Nat → State → Option State
  | 0, s => some s
  | n + 1, s =>
    match step s with
    | .next t => State.after n t
    | .fault _ => none
    | .refused _ => none

/-- s with the steps of these transactions next. -/
def State.plan (s : State) (ts : List Transaction) (rest : List Event) : State :=
  { s with pending := ts.map Event.host ++ rest }

/-- The transaction performs a soft reset (R153): a CTRL write with bit 1 set. -/
def Transaction.resets : Transaction → Bool
  | .read _ _ => false
  | .write a n v => decide (a = 0x0000000C) && decide (n = .word) && v[1]

/-! ## Terms of the statements -/

/-- The region of n bytes at DMEM offset a is in bounds (R48). -/
abbrev State.fits (s : State) (a : Word) (n : Nat) : Prop := a.toNat + n ≤ s.cfg.dmemBytes

/-- The message or source: MemRead of (SRC_ADDR, SRC_LEN). -/
def State.srcBytes (s : State) : ByteSeq := memRead s.dmem s.operands.srcAddr.toNat s.operands.srcLen.toNat

/-- The key: MemRead of (KEY_ADDR, KEY_LEN). -/
def State.keyBytes (s : State) : ByteSeq := memRead s.dmem s.operands.keyAddr.toNat s.operands.keyLen.toNat

/-- The digest HOTP_TRUNCATE reads: MemRead of (SRC_ADDR, 20). -/
def State.srcDigest (s : State) : ByteSeq := memRead s.dmem s.operands.srcAddr.toNat 20

/-- The end of a command with a code and with no other effect. -/
def State.failed (s : State) (code : BitVec 4) : State :=
  { s with busy := false, done := true, errCode := code }

/-- The end of a successful command: its output at DST_ADDR, the result registers, and the completion record. -/
def State.completed (s : State) (out : ByteSeq) (r : Results) : State :=
  { s with
    dmem := memWrite s.dmem s.operands.dstAddr.toNat out
    results := r
    busy := false
    done := true
    errCode := 0 }

/-- The number of bytes a command stores at DST_ADDR when it succeeds (R62, R78). -/
def storedLength (i : Instr) (s : State) : Nat :=
  match i with
  | .sha1 => 20
  | .prepareKey => 64
  | .hmacSha1 => 20
  | .b32Encode => b32TextLength s.operands.srcLen.toNat
  | .b32Decode => (b32Decode s.srcBytes).length
  | .hotpTruncate digits => digits
  | .hotp digits => digits

/-- The command writes DIGEST0 to DIGEST4 (R78). -/
def writesDigest : Instr → Bool
  | .sha1 => true
  | .prepareKey => false
  | .hmacSha1 => true
  | .b32Encode => false
  | .b32Decode => false
  | .hotpTruncate _ => false
  | .hotp _ => true

/-- The command writes TRUNC_OFFSET, TRUNC_P and CODE (R78). -/
def writesTruncation : Instr → Bool
  | .sha1 => false
  | .prepareKey => false
  | .hmacSha1 => false
  | .b32Encode => false
  | .b32Decode => false
  | .hotpTruncate _ => true
  | .hotp _ => true

/-- The two sets of operand registers agree on those that the command reads (R62). -/
def agreeOn (i : Instr) (r r' : Operands) : Prop :=
  r.dstAddr = r'.dstAddr ∧
  match i with
  | .sha1 => r.srcAddr = r'.srcAddr ∧ r.srcLen = r'.srcLen
  | .prepareKey => r.keyAddr = r'.keyAddr ∧ r.keyLen = r'.keyLen
  | .hmacSha1 =>
    r.keyAddr = r'.keyAddr ∧ r.keyLen = r'.keyLen ∧ r.srcAddr = r'.srcAddr ∧ r.srcLen = r'.srcLen
  | .b32Encode => r.srcAddr = r'.srcAddr ∧ r.srcLen = r'.srcLen
  | .b32Decode => r.srcAddr = r'.srcAddr ∧ r.srcLen = r'.srcLen
  | .hotpTruncate _ => r.srcAddr = r'.srcAddr
  | .hotp _ =>
    r.keyAddr = r'.keyAddr ∧ r.keyLen = r'.keyLen ∧ r.counterLo = r'.counterLo ∧ r.counterHi = r'.counterHi

/-- The number a byte sequence spells, byte 0 most significant. -/
def beValue (s : ByteSeq) : Nat := s.foldl (fun v b => 256 * v + b.toNat) 0

/-- The number a string of ASCII decimal digits spells. -/
def decimalValue (s : ByteSeq) : Nat := s.foldl (fun v b => 10 * v + (b.toNat - 0x30)) 0

/-- The number that Base32 characters spell in base 32, the first most significant: A to Z are 0 to 25 and 2 to 7 are 26
to 31 (R110, R111). Written without the decoder's own table. -/
def text32Value (text : ByteSeq) : Nat :=
  text.foldl (fun v b => 32 * v + (if 0x41 ≤ b.toNat then b.toNat - 0x41 else b.toNat - 0x18)) 0

/-- A byte of the Base32 alphabet: A to Z or 2 to 7 (R110). -/
abbrev inAlphabet (b : Byte) : Prop :=
  (0x41 ≤ b.toNat ∧ b.toNat ≤ 0x5A) ∨ (0x32 ≤ b.toNat ∧ b.toNat ≤ 0x37)

/-- The offset and size of a DMEM transaction that rules R39 and R42 admit. -/
abbrev State.inDmemWindow (s : State) (a : Word) (n : AccessSize) : Prop :=
  0x00010000 ≤ a.toNat ∧ a.toNat < 0x00010000 + s.cfg.dmemBytes ∧ a.toNat % n.bytes = 0

end Sys2Proof.Machine
end

