-- ==== Sys2Proof/Certificates/Slice0/Obligations.lean ====
section
/-! DEFINITION. The statements for the provers. Each docstring names the rule of the spec it formalises. -/

open Sys2Proof Sys2Proof.Machine

/-! ## Encoding -/

/-- R61, R63, R68: no bit of a command's encoding is dropped. -/
def Obligations.DecodeOfEncodeIsTheCommand : Prop :=
  ∀ i : Instr, i.wellFormed = true → decode (encode i) = .ok i

/-- R63: the legal words are exactly 1 to 5 and 0x0d06, 0x0d07 for d from 0 to 15, each with its one command; every
other word is ILLEGAL. -/
def Obligations.LegalWordsAreExactly : Prop :=
  ∀ (w : Word) (i : Instr), decode w = .ok i ↔
    (w = 0x1 ∧ i = .sha1) ∨ (w = 0x2 ∧ i = .prepareKey) ∨ (w = 0x3 ∧ i = .hmacSha1) ∨ (w = 0x4 ∧ i = .b32Encode)
    ∨ (w = 0x5 ∧ i = .b32Decode)
    ∨ (∃ d, d < 16 ∧ w.toNat = 0x6 + d * 0x100 ∧ i = .hotpTruncate d)
    ∨ (∃ d, d < 16 ∧ w.toNat = 0x7 + d * 0x100 ∧ i = .hotp d)

/-- The opcode table: a word decodes to a command exactly when a row admits it, and no two rows admit one word. -/
def Obligations.OpcodeRowsMatchTheDecoder : Prop :=
  (∀ w : Word, (∃ i, decode w = .ok i) ↔ ∃ r ∈ opcodeRows, r.admits w = true) ∧
  ∀ (w : Word) (j k : Nat) (hj : j < opcodeRows.length) (hk : k < opcodeRows.length),
    opcodeRows[j].admits w = true → opcodeRows[k].admits w = true → j = k

/-- 95_test_vectors.md section 2.5 and R68: words written out from the encodings. -/
def Obligations.WordsOfTheSpecDecode : Prop :=
  [0x00000001, 0x00000002, 0x00000003, 0x00000004, 0x00000005, 0x00000006, 0x00000106, 0x00000F06, 0x00000607,
    0x00000A07].map (decodeTableWord 32) =
    [some .sha1, some .prepareKey, some .hmacSha1, some .b32Encode, some .b32Decode, some (.hotpTruncate 0),
      some (.hotpTruncate 1), some (.hotpTruncate 15), some (.hotp 6), some (.hotp 10)] ∧
  [0x00000000, 0x00000101, 0x00000011, 0x00001001, 0x80000001, 0x00000008, 0x0000000F, 0x00010006, 0x00000B17].map
    (decodeTableWord 32) = List.replicate 9 none

/-- R68, R69: the transactions of each line of the assembler notation. `wait` stands for its reads of STATUS, one or
more, as many as the interleaving makes of the loop (the model's choice, log entry 7); so is what `put` makes of an
address past 2^32 (log entry 7) and `puts` of a character that has no ASCII code (log entry 12), and the word of a
digit count above 15 (log entry 14). -/
def Obligations.AssemblerLinesExpand : Prop :=
  (∀ i : Instr, (HostLine.command i).transactions = [.write 0x14 .word (encode i)]) ∧
  (∀ d, encode (.hotpTruncate d) = BitVec.ofNat 32 (0x6 + d * 0x100)
    ∧ encode (.hotp d) = BitVec.ofNat 32 (0x7 + d * 0x100)) ∧
  (∀ a n, (HostLine.src a n).transactions = [.write 0x20 .word a, .write 0x24 .word n]) ∧
  (∀ a n, (HostLine.key a n).transactions = [.write 0x28 .word a, .write 0x2C .word n]) ∧
  (∀ a, (HostLine.dst a).transactions = [.write 0x30 .word a]) ∧
  (∀ v : BitVec 64, ∃ lo hi : Word, (HostLine.ctr v).transactions = [.write 0x34 .word lo, .write 0x38 .word hi]
    ∧ lo.toNat = v.toNat % 2 ^ 32 ∧ hi.toNat = v.toNat / 2 ^ 32) ∧
  (∀ o b bs, (HostLine.put o (b :: bs)).transactions
    = .write (BitVec.ofNat 32 (0x10000 + o)) .byte (BitVec.ofNat 32 b.toNat) :: (HostLine.put (o + 1) bs).transactions) ∧
  (∀ o, (HostLine.put o []).transactions = []) ∧
  (∀ o text, (HostLine.puts o text).transactions
    = (HostLine.put o (text.map fun c => BitVec.ofNat 8 c.toNat)).transactions) ∧
  (∀ k, (HostLine.wait k).transactions = List.replicate (k + 1) (.read 0x10 .word)) ∧
  (HostLine.ack.transactions = [.write 0x10 .word 0x2]) ∧
  (∀ i k, (HostLine.run i k).transactions
    = (HostLine.command i).transactions ++ (HostLine.wait k).transactions) ∧
  (∀ o n, (HostLine.get o n).transactions
    = (List.range n).map fun i => .read (BitVec.ofNat 32 (0x10000 + (o + i))) .byte)

/-! ## The step -/

/-- A step of the engine runs the command that the CMD word decodes to (R70, R77), and adds nothing around exec but
taking the event. Two clauses rest on the model's choices: that it is the engine's turn when nothing is pending (log
entry 4), and that `withFetchWord`, by which a word is placed to be run by the very next step, is the acceptance of
that word with the engine's turn next (log entry 6). -/
def Obligations.StepRunsTheDecodedCommand : Prop :=
  (∀ (s : State) (i : Instr), s.busy = true → decode s.cmd = .ok i → s.pending = [] → step s = exec i s) ∧
  (∀ (s : State) (i : Instr) (rest : List Event), s.busy = true → decode s.cmd = .ok i →
    s.pending = .complete :: rest → step s = exec i { s with pending := rest }) ∧
  (∀ (s : State) (w : Nat) (i : Instr), decodeTableWord 32 w = some i →
    step (s.withFetchWord 32 w)
      = exec i { s with cmd := BitVec.ofNat 32 w, busy := true, done := false, errCode := 0 })

/-- R70 and the model's choice of log entry 4: the first pending event is the step taken, and the engine's turn passes
while BUSY = 0. -/
def Obligations.StepTakesTheFirstEvent : Prop :=
  (∀ (s : State) (t : Transaction) (rest : List Event), s.pending = .host t :: rest →
    step s = .next (hostStep t { s with pending := rest })) ∧
  (∀ (s : State) (rest : List Event), s.busy = false → s.pending = .complete :: rest →
    step s = .next { s with pending := rest }) ∧
  (∀ s : State, s.busy = false → s.pending = [] → step s = .next s)

/-- R64, R74, R77: an ILLEGAL word completes with ILLEGAL_CMD (5) and writes no output. That it does so when nothing
is pending, with no event for it, is the model's choice (log entry 4). -/
def Obligations.IllegalWordCompletes : Prop :=
  ∀ (s : State) (e : Illegal), s.busy = true → decode s.cmd = .error e →
    (s.pending = [] → step s = .next { s with busy := false, done := true, errCode := 5 }) ∧
    ∀ rest, s.pending = .complete :: rest →
      step s = .next { s with busy := false, done := true, errCode := 5, pending := rest }

/-- 93_implementation_defined.md: no behaviour of the block is stuck. Every step, from every state, has a next state.
That an idle block with nothing pending takes a step that changes nothing is the model's choice (log entry 4). -/
def Obligations.StepNeverStops : Prop := ∀ s : State, ∃ t, step s = .next t

/-- R71: acceptance of any CMD word, and what a STATUS read in the next transaction returns. -/
def Obligations.CmdWriteIsAccepted : Prop :=
  ∀ (s : State) (v : Word), s.busy = false →
    hostStep (.write 0x14 .word v) s
      = { s with cmd := v, busy := true, done := false, errCode := 0, response := some .ok } ∧
    (hostStep (.read 0x10 .word) (hostStep (.write 0x14 .word v) s)).response
      = some (.data (if s.accessErr then 5 else 1))

/-! ## What each command does when it succeeds -/

/-- R73, R77, R78, R100 -/
def Obligations.Sha1CommandResult : Prop :=
  ∀ s : State, s.fits s.operands.srcAddr s.operands.srcLen.toNat → s.fits s.operands.dstAddr 20 →
    exec .sha1 s = .next (s.completed (sha1 s.srcBytes)
      { s.results with outLen := 20, digest := digestWords (sha1 s.srcBytes) })

/-- R73, R77, R78, R108 -/
def Obligations.PrepareKeyCommandResult : Prop :=
  ∀ s : State, s.fits s.operands.keyAddr s.operands.keyLen.toNat → s.fits s.operands.dstAddr 64 →
    exec .prepareKey s = .next (s.completed (prepareKey s.keyBytes) { s.results with outLen := 64 })

/-- R73, R77, R78, R109 -/
def Obligations.HmacSha1CommandResult : Prop :=
  ∀ s : State, s.fits s.operands.keyAddr s.operands.keyLen.toNat →
    s.fits s.operands.srcAddr s.operands.srcLen.toNat → s.fits s.operands.dstAddr 20 →
    exec .hmacSha1 s = .next (s.completed (hmac s.keyBytes s.srcBytes)
      { s.results with outLen := 20, digest := digestWords (hmac s.keyBytes s.srcBytes) })

/-- R73, R77, R78, R120 -/
def Obligations.Base32EncodeCommandResult : Prop :=
  ∀ s : State, s.fits s.operands.srcAddr s.operands.srcLen.toNat →
    s.fits s.operands.dstAddr (8 * ((s.operands.srcLen.toNat + 4) / 5)) →
    exec .b32Encode s = .next (s.completed (b32Encode s.srcBytes)
      { s.results with outLen := BitVec.ofNat 32 (8 * ((s.operands.srcLen.toNat + 4) / 5)) })

/-- R73, R77, R78, R121 -/
def Obligations.Base32DecodeCommandResult : Prop :=
  ∀ s : State, s.fits s.operands.srcAddr s.operands.srcLen.toNat → b32Valid s.srcBytes = true →
    s.fits s.operands.dstAddr (b32Decode s.srcBytes).length →
    exec .b32Decode s = .next (s.completed (b32Decode s.srcBytes)
      { s.results with outLen := BitVec.ofNat 32 (5 * textCount s.srcBytes / 8) })

/-- R73, R77, R78, R131 -/
def Obligations.HotpTruncateCommandResult : Prop :=
  ∀ (s : State) (digits : Nat), 1 ≤ digits → digits ≤ 10 → s.fits s.operands.srcAddr 20 →
    s.fits s.operands.dstAddr digits →
    exec (.hotpTruncate digits) s = .next (s.completed (renderCode (truncatedValue s.srcDigest % 10 ^ digits) digits)
      { s.results with
        outLen := BitVec.ofNat 32 digits
        truncOffset := BitVec.ofNat 32 (truncationOffset s.srcDigest)
        truncP := BitVec.ofNat 32 (truncatedValue s.srcDigest)
        code := BitVec.ofNat 32 (truncatedValue s.srcDigest % 10 ^ digits) })

/-- R73, R77, R78, R123, R129, R132: hs is the HMAC of the key over the eight big-endian bytes of the counter. -/
def Obligations.HotpCommandResult : Prop :=
  ∀ (s : State) (digits : Nat) (hs : ByteSeq), 1 ≤ digits → digits ≤ 10 →
    s.fits s.operands.keyAddr s.operands.keyLen.toNat → s.fits s.operands.dstAddr digits →
    hs = hmac s.keyBytes
      (be64bytes (BitVec.ofNat 64 (s.operands.counterHi.toNat * 2 ^ 32 + s.operands.counterLo.toNat))) →
    exec (.hotp digits) s = .next (s.completed (renderCode (truncatedValue hs % 10 ^ digits) digits)
      { s.results with
        outLen := BitVec.ofNat 32 digits
        truncOffset := BitVec.ofNat 32 (truncationOffset hs)
        truncP := BitVec.ofNat 32 (truncatedValue hs)
        code := BitVec.ofNat 32 (truncatedValue hs % 10 ^ digits)
        digest := digestWords hs })

/-! ## Errors -/

/-- R48, R75: a region out of bounds, in unbounded arithmetic, makes the command fail with BOUNDS_ERROR (4). -/
def Obligations.RegionOutOfBoundsFails : Prop :=
  ∀ (s : State) (digits : Nat), 1 ≤ digits → digits ≤ 10 →
    (¬ s.fits s.operands.srcAddr s.operands.srcLen.toNat ∨ ¬ s.fits s.operands.dstAddr 20 →
      exec .sha1 s = .next (s.failed 4)) ∧
    (¬ s.fits s.operands.keyAddr s.operands.keyLen.toNat ∨ ¬ s.fits s.operands.dstAddr 64 →
      exec .prepareKey s = .next (s.failed 4)) ∧
    (¬ s.fits s.operands.keyAddr s.operands.keyLen.toNat ∨ ¬ s.fits s.operands.srcAddr s.operands.srcLen.toNat
        ∨ ¬ s.fits s.operands.dstAddr 20 →
      exec .hmacSha1 s = .next (s.failed 4)) ∧
    (¬ s.fits s.operands.srcAddr s.operands.srcLen.toNat
        ∨ ¬ s.fits s.operands.dstAddr (8 * ((s.operands.srcLen.toNat + 4) / 5)) →
      exec .b32Encode s = .next (s.failed 4)) ∧
    (¬ s.fits s.operands.srcAddr s.operands.srcLen.toNat
        ∨ (b32Valid s.srcBytes = true ∧ ¬ s.fits s.operands.dstAddr (b32Decode s.srcBytes).length) →
      exec .b32Decode s = .next (s.failed 4)) ∧
    (¬ s.fits s.operands.srcAddr 20 ∨ ¬ s.fits s.operands.dstAddr digits →
      exec (.hotpTruncate digits) s = .next (s.failed 4)) ∧
    (¬ s.fits s.operands.keyAddr s.operands.keyLen.toNat ∨ ¬ s.fits s.operands.dstAddr digits →
      exec (.hotp digits) s = .next (s.failed 4))

/-- R126, R74: a digit count outside [1, 10] fails with RANGE_ERROR (2), whatever the regions are. A count above 15,
which no CMD word holds, is the model's own (log entry 14). -/
def Obligations.DigitCountOutOfRangeFails : Prop :=
  ∀ (s : State) (digits : Nat), digits = 0 ∨ 10 < digits →
    exec (.hotpTruncate digits) s = .next (s.failed 2) ∧ exec (.hotp digits) s = .next (s.failed 2)

/-- R114, R74: an input in bounds that is not a valid encoding fails with FORMAT_ERROR (1), whatever the output
region is. -/
def Obligations.InvalidBase32InputFails : Prop :=
  ∀ s : State, s.fits s.operands.srcAddr s.operands.srcLen.toNat → b32Valid s.srcBytes = false →
    exec .b32Decode s = .next (s.failed 1)

/-- R76, and what the spec derives from it in rule R140: a command that ends with a nonzero code, an ILLEGAL word's
among them, has changed nothing but STATUS. -/
def Obligations.ErrorsArePrecise : Prop :=
  ∀ s t : State, s.busy = true → engineTurn s = .next t → t.errCode ≠ 0 →
    t = { s with busy := false, done := true, errCode := t.errCode }

/-- R77, R139, R136: the completion record of every command; and CMD, the operand registers, IRQ_EN and ACCESS_ERR,
which no command writes, with the model's own fields (log entries 2 and 3). What a successful command writes, DMEM and
the result registers, is not spoken of here. -/
def Obligations.CompletionRecordAndFrame : Prop :=
  ∀ s : State, s.busy = true → ∃ t, engineTurn s = .next t ∧
    t.busy = false ∧ t.done = true ∧ (t.errCode = 0 ∨ t.errCode = 1 ∨ t.errCode = 2 ∨ t.errCode = 4 ∨ t.errCode = 5) ∧
    t.cfg = s.cfg ∧ t.irqEn = s.irqEn ∧ t.accessErr = s.accessErr ∧ t.cmd = s.cmd ∧ t.operands = s.operands ∧
    t.response = s.response ∧ t.pending = s.pending

/-! ## Frames -/

/-- R77: a successful command stores to DST_ADDR .. DST_ADDR + storedLength, OUT_LEN is that length, and every other
byte of DMEM is unchanged. The last two clauses say of the terms that the result statements use, byte by byte, what
they are: the output stands at DST_ADDR, and MemRead gives the bytes that stand there (R12). -/
def Obligations.CommandsLeaveOtherBytes : Prop :=
  (∀ (i : Instr) (s t : State), exec i s = .next t →
    (t.errCode = 0 → t.results.outLen.toNat = storedLength i s ∧
      ∀ a, a < s.operands.dstAddr.toNat ∨ s.operands.dstAddr.toNat + storedLength i s ≤ a →
        t.dmem.readByte a = s.dmem.readByte a) ∧
    (t.errCode ≠ 0 → ∀ a, t.dmem.readByte a = s.dmem.readByte a)) ∧
  (∀ (s : State) (out : ByteSeq) (r : Results) (j : Nat), s.dmemSound = true → j < out.length →
    (s.completed out r).dmem.readByte (s.operands.dstAddr.toNat + j) = byteAt out j) ∧
  ∀ (m : Memory) (a n : Nat), (memRead m a n).length = n ∧
    ∀ j, j < n → byteAt (memRead m a n) j = m.readByte (a + j)

/-- R78: the result registers that a command's row does not list keep their values. -/
def Obligations.CommandsLeaveOtherResults : Prop :=
  ∀ (i : Instr) (s t : State), exec i s = .next t →
    (writesDigest i = false → t.results.digest = s.results.digest) ∧
    (writesTruncation i = false → t.results.truncOffset = s.results.truncOffset ∧
      t.results.truncP = s.results.truncP ∧ t.results.code = s.results.code) ∧
    (t.errCode ≠ 0 → t.results = s.results)

/-- R31, R51: after a successful SHA1, its digest stands in DMEM, byte i at DST_ADDR + i, and in DIGEST0 to DIGEST4
big endian; an aligned 4-byte host read of it returns the bytes in reversed order. -/
def Obligations.Sha1DigestReadsBack : Prop :=
  ∀ s : State, s.dmemSound = true → s.fits s.operands.srcAddr s.operands.srcLen.toNat →
    s.fits s.operands.dstAddr 20 →
    ∃ t, exec .sha1 s = .next t ∧
      (∀ i, i < 20 → t.dmem.readByte (s.operands.dstAddr.toNat + i) = byteAt (sha1 s.srcBytes) i) ∧
      beValue (sha1 s.srcBytes) = t.results.digest.h0.toNat * 2 ^ 128 + t.results.digest.h1.toNat * 2 ^ 96
        + t.results.digest.h2.toNat * 2 ^ 64 + t.results.digest.h3.toNat * 2 ^ 32 + t.results.digest.h4.toNat ∧
      (t.busy = false ∧ (s.operands.dstAddr.toNat % 4 = 0 →
        hostStep (.read (BitVec.ofNat 32 (0x10000 + s.operands.dstAddr.toNat)) .word) t
          = { t with response := some (.data (be32 ((sha1 s.srcBytes).take 4).reverse)) }))

/-- R72: Exec reads nothing but the command, the operand registers and DMEM (and the size of DMEM). -/
def Obligations.ExecReadsOnlyOperandsAndDmem : Prop :=
  ∀ (i : Instr) (s s' : State), s'.cfg = s.cfg → s'.operands = s.operands → s'.dmem = s.dmem →
    ∃ t t', exec i s = .next t ∧ exec i s' = .next t' ∧ t'.errCode = t.errCode ∧ t'.dmem = t.dmem ∧
      (t.errCode = 0 → t'.results.outLen = t.results.outLen ∧
        (writesDigest i = true → t'.results.digest = t.results.digest) ∧
        (writesTruncation i = true → t'.results.truncOffset = t.results.truncOffset ∧
          t'.results.truncP = t.results.truncP ∧ t'.results.code = t.results.code))

/-- R62: a register not listed for a command is ignored by it, whatever its value. -/
def Obligations.UnlistedOperandsAreIgnored : Prop :=
  ∀ (i : Instr) (s : State) (r : Operands), agreeOn i s.operands r →
    ∃ t, exec i s = .next t ∧ exec i { s with operands := r } = .next { t with operands := r }

/-! ## SHA-1 and HMAC-SHA-1 -/

/-- R85: the padding, with the one z in [0, 63]. The last clause, the value of the length field in this block, is what
the spec derives from it in rule R87. -/
def Obligations.PaddingAppends : Prop :=
  ∀ m : ByteSeq, ∃ z : Nat, z ≤ 63 ∧ (z : Int) = (55 - (m.length : Int)) % 64 ∧ (m.length + 1 + z) % 64 = 56 ∧
    (∀ y : Nat, y ≤ 63 → (m.length + 1 + y) % 64 = 56 → y = z) ∧
    pad m = m ++ 0x80 :: (List.replicate z 0x00 ++ be64bytes (BitVec.ofNat 64 (8 * m.length))) ∧
    (m.length ≤ 65536 → 8 * m.length ≤ 2 ^ 19 ∧
      beValue (be64bytes (BitVec.ofNat 64 (8 * m.length))) = 8 * m.length)

/-- The length of the padded message and the block count, which the spec derives from rule R85 in rule R86. -/
def Obligations.PaddedMessageIsWholeBlocks : Prop :=
  ∀ m : ByteSeq, (pad m).length = 64 * ((m.length + 8) / 64 + 1) ∧
    ((pad m).length : Int) = m.length + 9 + (55 - (m.length : Int)) % 64 ∧
    (m.length ≤ 55 → (pad m).length = 64) ∧ (56 ≤ m.length → m.length ≤ 119 → (pad m).length = 128) ∧
    ((pad m).length = 64 * (m.length / 64 + 2) ↔ 56 ≤ m.length % 64)

/-- R89, R90: the eighty schedule words of a block. -/
def Obligations.ScheduleRecurrence : Prop :=
  ∀ x : ByteSeq, x.length = 64 → (schedule x).length = 80 ∧
    (∀ t, t < 16 → (schedule x).getD t 0 = be32 [byteAt x (4 * t), byteAt x (4 * t + 1), byteAt x (4 * t + 2),
      byteAt x (4 * t + 3)]) ∧
    ∀ t, 16 ≤ t → t < 80 → (schedule x).getD t 0 = rotl32 ((schedule x).getD (t - 3) 0 ^^^ (schedule x).getD (t - 8) 0
      ^^^ (schedule x).getD (t - 14) 0 ^^^ (schedule x).getD (t - 16) 0) 1

/-- The round functions and constants of the four groups of rounds, which rules R91 and R92 mark [from general
knowledge, not in source] (log entry 10). -/
def Obligations.RoundFunctionsAndConstants : Prop :=
  ∀ (t : Nat) (b c d : Word),
    (t ≤ 19 → roundFunction t b c d = (b &&& c) ||| (~~~b &&& d) ∧ roundConstant t = 0x5A827999) ∧
    (20 ≤ t → t ≤ 39 → roundFunction t b c d = b ^^^ c ^^^ d ∧ roundConstant t = 0x6ED9EBA1) ∧
    (40 ≤ t → t ≤ 59 → roundFunction t b c d = (b &&& c) ||| (b &&& d) ||| (c &&& d)
      ∧ roundConstant t = 0x8F1BBCDC) ∧
    (60 ≤ t → t ≤ 79 → roundFunction t b c d = b ^^^ c ^^^ d ∧ roundConstant t = 0xCA62C1D6)

/-- R94, R96: compress runs eighty rounds and adds the working words to H. The data flow of a round and the addition
are marked [from general knowledge, not in source] in rules R93 and R95 (log entry 10). -/
def Obligations.CompressRunsEightyRounds : Prop :=
  ∀ (h : HashWords) (x : ByteSeq), ∃ st : Nat → Working,
    st 0 = { a := h.h0, b := h.h1, c := h.h2, d := h.h3, e := h.h4 } ∧
    (∀ t, t < 80 → st (t + 1) =
      { a := rotl32 (st t).a 5 + roundFunction t (st t).b (st t).c (st t).d + (st t).e + (schedule x).getD t 0
          + roundConstant t
        b := (st t).a
        c := rotl32 (st t).b 30
        d := (st t).c
        e := (st t).d }) ∧
    compress h x = { h0 := h.h0 + (st 80).a, h1 := h.h1 + (st 80).b, h2 := h.h2 + (st 80).c, h3 := h.h3 + (st 80).d,
                     h4 := h.h4 + (st 80).e }

/-- R84, R97, R98: sha1 folds compress over the blocks in order from H_INIT; the digest is always 20 bytes, byte 4i+j
the byte [31-8j : 24-8j] of word i, and reading its words back gives the accumulators. -/
def Obligations.DigestIsTheAccumulators : Prop :=
  ∀ m : ByteSeq, ∃ h : HashWords,
    h = (List.range ((pad m).length / 64)).foldl (fun h blk => compress h (((pad m).drop (64 * blk)).take 64))
      ⟨0x67452301, 0xEFCDAB89, 0x98BADCFE, 0x10325476, 0xC3D2E1F0⟩ ∧
    (sha1 m).length = 20 ∧ digestWords (sha1 m) = h ∧
    ∀ j, j < 4 → byteAt (sha1 m) j = h.h0.extractLsb' (24 - 8 * j) 8 ∧
      byteAt (sha1 m) (4 + j) = h.h1.extractLsb' (24 - 8 * j) 8 ∧
      byteAt (sha1 m) (8 + j) = h.h2.extractLsb' (24 - 8 * j) 8 ∧
      byteAt (sha1 m) (12 + j) = h.h3.extractLsb' (24 - 8 * j) 8 ∧
      byteAt (sha1 m) (16 + j) = h.h4.extractLsb' (24 - 8 * j) 8

/-- R100, 95_test_vectors.md L1-1: the digest of "abc" (90_conflicts.md C1), and of the empty message. -/
def Obligations.Sha1OfTheSpecVectors : Prop :=
  sha1 [0x61, 0x62, 0x63] = [0xa9, 0x99, 0x3e, 0x36, 0x47, 0x06, 0x81, 0x6a, 0xba, 0x3e, 0x25, 0x71, 0x78, 0x50, 0xc2,
    0x6c, 0x9c, 0xd0, 0xd8, 0x9d] ∧
  sha1 [] = [0xda, 0x39, 0xa3, 0xee, 0x5e, 0x6b, 0x4b, 0x0d, 0x32, 0x55, 0xbf, 0xef, 0x95, 0x60, 0x18, 0x90, 0xaf, 0xd8,
    0x07, 0x09]

/-- R99: the phases of the engine, from whatever hidden state the pass finds, end in OUT with the digest of rule R84,
and not one phase step earlier. What one phase step holds,
and so their number, is the model's choice (log entry 13). -/
def Obligations.PhasedPassComputesSha1 : Prop :=
  ∀ (m : ByteSeq) (x : HashState),
    (passRun m (passLength m.length) ⟨.init, x⟩).phase = .out ∧
    passDigest (passRun m (passLength m.length) ⟨.init, x⟩) = sha1 m ∧
    ∀ n, n < passLength m.length → (passRun m n ⟨.init, x⟩).phase ≠ .out

/-- R101: the prepared key is 64 bytes in each of the three cases. What the spec derives from it in rules R102 and
R103: the empty key and every all-zero key below 64 bytes prepare to 64 zero bytes, so HMAC cannot tell them apart; a
key of 65 or more bytes prepares as its digest does. -/
def Obligations.PreparedKeyCases : Prop :=
  ∀ key : ByteSeq, (prepareKey key).length = 64 ∧
    (64 < key.length → prepareKey key = sha1 key ++ List.replicate 44 0x00) ∧
    (key.length < 64 → prepareKey key = key ++ List.replicate (64 - key.length) 0x00) ∧
    (key.length = 64 → prepareKey key = key) ∧
    prepareKey [] = List.replicate 64 0x00 ∧
    (65 ≤ key.length → prepareKey key = prepareKey (sha1 key)) ∧
    ∀ n, n < 64 → prepareKey (List.replicate n 0x00) = prepareKey [] ∧
      ∀ msg, hmac (List.replicate n 0x00) msg = hmac [] msg

/-- R105: hmac is 20 bytes and is the two-pass formula; and, as the spec derives in rule R103, it does not tell a key
of 65 or more bytes from its digest. -/
def Obligations.HmacOfLongKey : Prop :=
  ∀ key msg : ByteSeq, (hmac key msg).length = 20 ∧
    hmac key msg = sha1 ((prepareKey key).map (· ^^^ 0x5C) ++ sha1 ((prepareKey key).map (· ^^^ 0x36) ++ msg)) ∧
    (65 ≤ key.length → hmac key msg = hmac (sha1 key) msg)

/-! ## Base32 -/

/-- The round trip, which the source requires and the spec derives in rule R118. -/
def Obligations.Base32RoundTrip : Prop :=
  ∀ x : ByteSeq, b32Valid (b32Encode x) = true ∧ b32Decode (b32Encode x) = x

/-- What the spec derives in rule R113: the length of the encoded text, a multiple of 8, made of alphabet characters
followed by padding only; and for L = 5k + m the number of quintets, of zero bits on the right and of padding
characters. -/
def Obligations.Base32EncodedForm : Prop :=
  ∀ (x : ByteSeq) (k : Nat), (b32Encode x).length = 8 * ((x.length + 4) / 5) ∧ b32Encode [] = [] ∧
    ∃ (text : ByteSeq) (p : Nat), b32Encode x = text ++ List.replicate p 0x3D ∧ (∀ b ∈ text, inAlphabet b) ∧
      (x.length = 5 * k → text.length = 8 * k ∧ p = 0 ∧ (b32Encode x).length = 8 * k) ∧
      (x.length = 5 * k + 1 → text.length = 8 * k + 2 ∧ 5 * text.length - 8 * x.length = 2 ∧ p = 6
        ∧ (b32Encode x).length = 8 * k + 8) ∧
      (x.length = 5 * k + 2 → text.length = 8 * k + 4 ∧ 5 * text.length - 8 * x.length = 4 ∧ p = 4
        ∧ (b32Encode x).length = 8 * k + 8) ∧
      (x.length = 5 * k + 3 → text.length = 8 * k + 5 ∧ 5 * text.length - 8 * x.length = 1 ∧ p = 3
        ∧ (b32Encode x).length = 8 * k + 8) ∧
      (x.length = 5 * k + 4 → text.length = 8 * k + 7 ∧ 5 * text.length - 8 * x.length = 3 ∧ p = 1
        ∧ (b32Encode x).length = 8 * k + 8)

/-- R110, R111, R112: character j of the text is the alphabet's character (A to Z, then 2 to 7) for quintet j of the
big-endian bitstream, zero bits appended on the right, computed here on the number that the whole bitstream spells. -/
def Obligations.Base32EncodeTakesQuintets : Prop :=
  ∀ (x : ByteSeq) (j q v : Nat), q = (8 * x.length + 4) / 5 → j < q →
    v = beValue x * 2 ^ (5 * q - 8 * x.length) / 32 ^ (q - 1 - j) % 32 →
    byteAt (b32Encode x) j = if v < 26 then BitVec.ofNat 8 (0x41 + v) else BitVec.ofNat 8 (0x18 + v)

/-- R114: the input is valid exactly when (V1) to (V4) hold. -/
def Obligations.Base32ValidInputs : Prop :=
  ∀ s : ByteSeq, b32Valid s = true ↔
    ∃ text p, s = text ++ List.replicate p 0x3D ∧ s.length % 8 = 0 ∧ (∀ b ∈ text, inAlphabet b) ∧
      (text.length % 8 = 0 ∨ text.length % 8 = 2 ∨ text.length % 8 = 4 ∨ text.length % 8 = 5 ∨ text.length % 8 = 7) ∧
      p = (8 - text.length % 8) % 8

/-- R110, R115, R117: byte j of the decoded bytes is octet j of the number that the values of the text's characters
spell in base 32, its last 5n - 8m bits dropped unchecked. And what the spec derives in rule R116: the decoded length
and the number of discarded bits for n = 8k + r non-pad characters. -/
def Obligations.Base32DecodedLength : Prop :=
  ∀ (s : ByteSeq) (k : Nat), b32Valid s = true →
    (∃ (text : ByteSeq) (p m : Nat), s = text ++ List.replicate p 0x3D ∧ (∀ b ∈ text, inAlphabet b) ∧
      textCount s = text.length ∧ m = 5 * text.length / 8 ∧
      ∀ j, j < m → byteAt (b32Decode s) j = BitVec.ofNat 8 (text32Value text / 2 ^ (5 * text.length - 8 * m)
        / 256 ^ (m - 1 - j) % 256)) ∧
    (b32Decode s).length = 5 * textCount s / 8 ∧
    (textCount s = 8 * k → (b32Decode s).length = 5 * k ∧ 5 * textCount s - 8 * (b32Decode s).length = 0) ∧
    (textCount s = 8 * k + 2 → (b32Decode s).length = 5 * k + 1 ∧ 5 * textCount s - 8 * (b32Decode s).length = 2) ∧
    (textCount s = 8 * k + 4 → (b32Decode s).length = 5 * k + 2 ∧ 5 * textCount s - 8 * (b32Decode s).length = 4) ∧
    (textCount s = 8 * k + 5 → (b32Decode s).length = 5 * k + 3 ∧ 5 * textCount s - 8 * (b32Decode s).length = 1) ∧
    (textCount s = 8 * k + 7 → (b32Decode s).length = 5 * k + 4 ∧ 5 * textCount s - 8 * (b32Decode s).length = 3) ∧
    b32Decode [] = []

/-! ## HOTP -/

/-- R124, R125: the offset and the 31-bit value with its top bit masked, for any 20 bytes; and the code value of rule
R127, whose range the spec derives there. -/
def Obligations.TruncationAndCode : Prop :=
  ∀ (hs : ByteSeq) (digits : Nat), hs.length = 20 →
    truncationOffset hs = (byteAt hs 19).toNat % 16 ∧ truncationOffset hs + 3 ≤ 18 ∧
    truncatedValue hs
      = beValue ((hs.drop (truncationOffset hs)).take 4) % 2 ^ 31 ∧
    truncatedValue hs < 2 ^ 31 ∧
    codeValue hs digits = truncatedValue hs % 10 ^ digits ∧ codeValue hs digits ≤ truncatedValue hs ∧
    codeValue hs digits < 10 ^ digits ∧ codeValue hs 10 = truncatedValue hs

/-- R128: exactly `digits` ASCII digits, and no digit of d is lost. -/
def Obligations.RenderedCodeSpellsIt : Prop :=
  ∀ d digits : Nat, d < 10 ^ digits → (renderCode d digits).length = digits ∧
    (∀ b ∈ renderCode d digits, 0x30 ≤ b.toNat ∧ b.toNat ≤ 0x39) ∧ decimalValue (renderCode d digits) = d

/-- R29, R122: the counter's eight bytes, COUNTER_HI first, each register most significant byte first. -/
def Obligations.CounterPacking : Prop :=
  ∀ r : Operands, (counter r).toNat = r.counterHi.toNat * 2 ^ 32 + r.counterLo.toNat ∧
    be64bytes (counter r) =
      [r.counterHi.extractLsb' 24 8, r.counterHi.extractLsb' 16 8, r.counterHi.extractLsb' 8 8,
       r.counterHi.extractLsb' 0 8, r.counterLo.extractLsb' 24 8, r.counterLo.extractLsb' 16 8,
       r.counterLo.extractLsb' 8 8, r.counterLo.extractLsb' 0 8]

/-! ## The host port -/

/-- R41, R43, and R42: a malformed transaction gets BusError and the state does not change (ACCESS_ERR neither), BUSY
or not. The last clause, that an aligned DMEM transaction lies wholly inside DMEM, is what the spec derives in rule
R42. -/
def Obligations.MalformedTransactions : Prop :=
  ∀ (s : State) (a : Word) (n : AccessSize) (v : Word),
    ((a.toNat < 0x10000 ∧ (n ≠ .word ∨ a.toNat % 4 ≠ 0 ∨ ∀ r : Reg, r.offset ≠ a.toNat))
      ∨ (0x10000 ≤ a.toNat ∧ a.toNat < 0x10000 + s.cfg.dmemBytes ∧ a.toNat % n.bytes ≠ 0)
      ∨ 0x10000 + s.cfg.dmemBytes ≤ a.toNat →
      hostStep (.read a n) s = { s with response := some .busError } ∧
      hostStep (.write a n v) s = { s with response := some .busError }) ∧
    (s.inDmemWindow a n → a.toNat - 0x10000 + n.bytes ≤ s.cfg.dmemBytes)

/-- R21, R36, and the model's reset state (log entries 1, 2 and 3): the 22 offsets, what each register reads after
reset at the reference size, and that the reset state is sound. -/
def Obligations.RegisterMapAtReset : Prop :=
  allRegs.map (fun r => (r.offset, readReg r State.reset)) =
    [(0x000, 0x54505331), (0x004, 0x00010000), (0x008, 0x00001000), (0x00C, 0), (0x010, 0), (0x014, 0), (0x020, 0),
     (0x024, 0), (0x028, 0), (0x02C, 0), (0x030, 0), (0x034, 0), (0x038, 0), (0x040, 0), (0x044, 0), (0x048, 0),
     (0x04C, 0), (0x050, 0), (0x054, 0), (0x058, 0), (0x05C, 0), (0x060, 0)] ∧
  State.reset.sound = true ∧ irq State.reset = false

/-- R22 to R25, R27, R28, R30, R31, R45: the value that each of the 22 registers reads; a 4-byte read of a register
changes nothing and returns its value; a write of an operand register while BUSY = 0 stores all 32 bits there and
changes no other register; a write of an RO register is ignored with Ok. -/
def Obligations.RegisterReadsAndWrites : Prop :=
  (∀ s : State, allRegs.map (fun r => readReg r s) =
    [0x54505331, 0x00010000, BitVec.ofNat 32 s.cfg.dmemBytes, if s.irqEn then 1 else 0,
     BitVec.ofNat 32 (s.errCode.toNat * 16 + s.accessErr.toNat * 4 + s.done.toNat * 2 + s.busy.toNat), s.cmd,
     s.operands.srcAddr, s.operands.srcLen, s.operands.keyAddr, s.operands.keyLen, s.operands.dstAddr,
     s.operands.counterLo, s.operands.counterHi, s.results.outLen, s.results.truncOffset, s.results.truncP,
     s.results.code, s.results.digest.h0, s.results.digest.h1, s.results.digest.h2, s.results.digest.h3,
     s.results.digest.h4]) ∧
  (∀ (s : State) (r : Reg),
    hostStep (.read (BitVec.ofNat 32 r.offset) .word) s = { s with response := some (.data (readReg r s)) }) ∧
  (∀ (s : State) (r : Reg) (v : Word), s.busy = false →
    r ∈ [.srcAddr, .srcLen, .keyAddr, .keyLen, .dstAddr, .counterLo, .counterHi] →
    ∃ ops, hostStep (.write (BitVec.ofNat 32 r.offset) .word v) s
        = { s with operands := ops, response := some .ok } ∧
      readReg r { s with operands := ops } = v ∧
      ∀ r', r' ≠ r → readReg r' { s with operands := ops } = readReg r' s) ∧
  (∀ (s : State) (r : Reg) (v : Word),
    r ∈ [.id, .version, .config, .outLen, .truncOffset, .truncP, .code, .digest0, .digest1, .digest2, .digest3,
      .digest4] →
    hostStep (.write (BitVec.ofNat 32 r.offset) .word v) s = { s with response := some .ok })

/-- R25, R142: a STATUS read and a STATUS write, BUSY or not; the acknowledge lowers irq and keeps ERR_CODE; the next
acceptance clears DONE and ERR_CODE, and both resets clear ERR_CODE. -/
def Obligations.StatusReadAndAcknowledge : Prop :=
  ∀ (s : State) (v : Word) (draw : List Host.Cell),
    (readReg .status s).toNat
      = s.errCode.toNat * 16 + s.accessErr.toNat * 4 + s.done.toNat * 2 + s.busy.toNat ∧
    hostStep (.write 0x10 .word v) s = { s with
      done := if v[1] then false else s.done
      accessErr := if v[2] then false else s.accessErr
      response := some .ok } ∧
    (v[1] = true → irq (hostStep (.write 0x10 .word v) s) = false) ∧
    (hostStep (.write 0x10 .word v) s).errCode = s.errCode ∧
    (s.busy = false → (hostStep (.write 0x14 .word v) s).done = false
      ∧ (hostStep (.write 0x14 .word v) s).errCode = 0) ∧
    (v[1] = true → (hostStep (.write 0x0C .word v) s).errCode = 0) ∧ (powerOnReset draw s).errCode = 0

/-- R24, R153: a CTRL write, BUSY or not: bit 1 performs the soft reset, which keeps DMEM, and nothing else; otherwise
IRQ_EN takes bit 0. A CTRL read returns IRQ_EN. -/
def Obligations.ControlWriteAndSoftReset : Prop :=
  ∀ (s : State) (v : Word),
    readReg .ctrl s = (if s.irqEn then 1 else 0) ∧
    (v[1] = true → hostStep (.write 0x0C .word v) s = { s with
      irqEn := false, busy := false, done := false, accessErr := false, errCode := 0, cmd := 0
      operands := ⟨0, 0, 0, 0, 0, 0, 0⟩, results := ⟨0, 0, 0, 0, ⟨0, 0, 0, 0, 0⟩⟩, response := some .ok } ∧
      sequencer (hostStep (.write 0x0C .word v) s) = .idle ∧
      readReg .ctrl (hostStep (.write 0x0C .word v) s) = 0) ∧
    (v[1] = false → hostStep (.write 0x0C .word v) s
      = { s with irqEn := v[0], response := some .ok })

/-- R46: what is refused while BUSY = 1, and what is not. -/
def Obligations.BusyLock : Prop :=
  ∀ (s : State) (a : Word) (n : AccessSize) (v : Word) (r : Reg), s.busy = true →
    (s.inDmemWindow a n →
      hostStep (.read a n) s = { s with accessErr := true, response := some .busError } ∧
      hostStep (.write a n v) s = { s with accessErr := true, response := some .busError }) ∧
    (r ∈ [.cmd, .srcAddr, .srcLen, .keyAddr, .keyLen, .dstAddr, .counterLo, .counterHi] →
      hostStep (.write (BitVec.ofNat 32 r.offset) .word v) s
        = { s with accessErr := true, response := some .busError }) ∧
    (target s.cfg a n = none →
      (hostStep (.read a n) s).accessErr = s.accessErr ∧ (hostStep (.write a n v) s).accessErr = s.accessErr) ∧
    hostStep (.read (BitVec.ofNat 32 r.offset) .word) s = { s with response := some (.data (readReg r s)) } ∧
    (r = .ctrl ∨ r = .status →
      hostStep (.write (BitVec.ofNat 32 r.offset) .word v) s = { writeReg r v s with response := some .ok }) ∧
    (r ∈ [.id, .version, .config, .outLen, .truncOffset, .truncP, .code, .digest0, .digest1, .digest2, .digest3,
      .digest4] →
      hostStep (.write (BitVec.ofNat 32 r.offset) .word v) s = { s with response := some .ok })

/-- R44: the little-endian byte lanes of an aligned DMEM transaction with BUSY = 0, and the frame of the write. -/
def Obligations.DmemByteLanes : Prop :=
  ∀ (s : State) (a : Word) (n : AccessSize) (v : Word), s.busy = false → s.dmemSound = true → s.inDmemWindow a n →
    (∃ d : Word, hostStep (.read a n) s = { s with response := some (.data d) } ∧
      d.toNat = ((List.range n.bytes).map fun i =>
        (s.dmem.readByte (a.toNat - 0x10000 + i)).toNat * 2 ^ (8 * i)).sum) ∧
    ∃ m : Memory, hostStep (.write a n v) s = { s with dmem := m, response := some .ok } ∧
      (∀ i, i < n.bytes → m.readByte (a.toNat - 0x10000 + i) = v.extractLsb' (8 * i) 8) ∧
      ∀ x, x < a.toNat - 0x10000 ∨ a.toNat - 0x10000 + n.bytes ≤ x → m.readByte x = s.dmem.readByte x

/-! ## Resets and the interrupt -/

/-- What R152 and R36 say of a power-on reset, at any time: it sets every register to its reset value, irq is 0, DMEM
is whatever was drawn, and every content of DMEM can be drawn. The model's choices in it: the draw is a list that the
event carries (log entry 9), DMEM is kept in canonical form over a blank byte (log entry 1), and `response` is kept
(log entry 3). -/
def Obligations.PowerOnResetDrawsDmem : Prop :=
  (∀ (s : State) (draw : List Host.Cell) (rest : List Event), s.pending = .powerOn draw :: rest →
    ∃ t, step s = .next t ∧ irq t = false ∧ sequencer t = .idle ∧ t.dmemSound = true ∧
      t = { s with
        irqEn := false, busy := false, done := false, accessErr := false, errCode := 0, cmd := 0
        operands := ⟨0, 0, 0, 0, 0, 0, 0⟩, results := ⟨0, 0, 0, 0, ⟨0, 0, 0, 0, 0⟩⟩, dmem := t.dmem
        pending := rest }) ∧
  ∀ (s : State) (content : Nat → Byte) (rest : List Event), ∃ (draw : List Host.Cell) (t : State),
    step { s with pending := .powerOn draw :: rest } = .next t ∧
    ∀ o, o < s.cfg.dmemBytes → t.dmem.readByte o = content o

/-- R145: the level of irq, what raises it, what lowers it, and that a refused or malformed transaction does not. -/
def Obligations.InterruptLevel : Prop :=
  ∀ (s : State) (v a : Word) (n : AccessSize) (draw : List Host.Cell),
    (irq s = true ↔ s.irqEn = true ∧ s.done = true) ∧
    (s.busy = true → ∃ t, engineTurn s = .next t ∧ irq t = s.irqEn) ∧
    (v[1] = false → irq (hostStep (.write 0x0C .word v) s) = (v[0] && s.done)) ∧
    (v[1] = true → irq (hostStep (.write 0x0C .word v) s) = false
      ∧ irq (hostStep (.write 0x10 .word v) s) = false) ∧
    (s.busy = false → irq (hostStep (.write 0x14 .word v) s) = false) ∧
    irq (powerOnReset draw s) = false ∧
    ((hostStep (.read a n) s).response = some .busError → irq (hostStep (.read a n) s) = irq s) ∧
    ((hostStep (.write a n v) s).response = some .busError → irq (hostStep (.write a n v) s) = irq s)

/-! ## Whole-machine rules -/

/-- R20, R26 (a), R30, R38, R133: every step keeps the invariant: DMEM canonical and inside its size, BUSY = 1 only
with DONE = 0 and ERR_CODE = 0, only codes that some rule produces, the result registers in their ranges. -/
def Obligations.EveryStepKeepsTheStateSound : Prop :=
  ∀ s t : State, s.sound = true → step s = .next t → t.sound = true

/-- The invariants that the spec derives in rule R26: what a step can do to the STATUS fields. ERR_CODE changes only
at acceptance (to 0), at completion and at reset (to 0); ACCESS_ERR is set only by a refused transaction while BUSY =
1, and cleared only by a STATUS write or a reset. -/
def Obligations.StatusFieldsChangeOnlySo : Prop :=
  ∀ s t : State, s.statusSound = true → step s = .next t →
    (t.busy = true → t.done = false ∧ t.errCode = 0) ∧
    (t.errCode ≠ s.errCode →
      (s.busy = true ∧ t.busy = false ∧ t.done = true ∧ engineTurn { s with pending := t.pending } = .next t)
        ∨ (s.busy = false ∧ t.busy = true ∧ t.errCode = 0)
        ∨ (t.errCode = 0 ∧ t = { State.reset with
            cfg := t.cfg, dmem := t.dmem, response := t.response, pending := t.pending })) ∧
    (t.accessErr = true → s.accessErr = false →
      s.busy = true ∧ t.response = some .busError ∧ ∃ x rest, s.pending = .host x :: rest) ∧
    (t.accessErr = false → s.accessErr = true →
      (∃ v rest, s.pending = .host (.write 0x10 .word v) :: rest ∧ v[2] = true)
        ∨ t = { State.reset with cfg := t.cfg, dmem := t.dmem, response := t.response, pending := t.pending })

/-- R23: ID, VERSION and CONFIG are constants, and no step changes them. -/
def Obligations.ConstantsNeverChange : Prop :=
  ∀ s t : State, readReg .id s = 0x54505331 ∧ readReg .version s = 0x00010000 ∧
    (readReg .config s).toNat = s.cfg.dmemBytes ∧
    (s.cfg = Config.reference → readReg .config s = 0x00001000) ∧
    (step s = .next t → t.cfg = s.cfg ∧ readReg .id t = readReg .id s ∧ readReg .version t = readReg .version s
      ∧ readReg .config t = readReg .config s)

/-- R72, R54, R46, with the steps to come held in `pending` (log entries 3 and 4): while a command runs, no
transaction but a soft reset changes what it computes on, so the command's whole result is the same however many
transactions the host makes before Complete. -/
def Obligations.ResultDoesNotDependOnInterleaving : Prop :=
  ∀ (s : State) (i : Instr) (ts : List Transaction) (rest : List Event), s.busy = true → decode s.cmd = .ok i →
    (∀ t ∈ ts, t.resets = false) →
    ∃ u v w, State.after ts.length (s.plan ts (.complete :: rest)) = some u ∧ step u = .next v ∧
      exec i s = .next w ∧ u.pending = .complete :: rest ∧
      u.busy = true ∧ u.cmd = s.cmd ∧ u.operands = s.operands ∧ u.dmem = s.dmem ∧ u.results = s.results ∧
      v.busy = false ∧ v.done = true ∧ v.errCode = w.errCode ∧ v.dmem = w.dmem ∧ v.results = w.results ∧
      v.cmd = w.cmd ∧ v.operands = w.operands ∧ v.pending = rest

/-- R80: an accepted command completes after finitely many steps, whatever transactions but a soft reset come first.
That the engine's turn comes when nothing is pending is the model's rendering of the fairness (log entry 4). -/
def Obligations.BusyCommandCompletes : Prop :=
  ∀ (s : State) (ts : List Transaction), s.busy = true → (∀ t ∈ ts, t.resets = false) →
    ∃ u, State.after (ts.length + 1) (s.plan ts []) = some u ∧ u.busy = false ∧ u.done = true

/-- R81, R153: a soft reset while BUSY = 1 abandons the command: no output, no result register, DONE stays 0. That an
engine's turn may follow it, and passes, is the model's choice (log entry 4). -/
def Obligations.SoftResetAbandonsTheCommand : Prop :=
  ∀ (s : State) (v : Word) (rest : List Event), s.busy = true → v[1] = true →
    s.pending = .host (.write 0x0C .word v) :: .complete :: rest →
    ∃ u, State.after 2 s = some u ∧ u.dmem = s.dmem ∧ u.results = Results.reset ∧ u.busy = false ∧ u.done = false ∧
      u.errCode = 0 ∧ u.pending = rest
end

