-- ==== Sys2Proof/Laws/Memory.lean ====
section
/-! SUPPORT. The laws of DMEM: a byte written reads back, every other byte is left, every operation keeps the canonical
form and the bounds, and equal contents are equal data. -/

namespace Sys2Proof.Machine

/-! ### One byte -/

theorem readCell_below {cells : List Host.Cell} {l o : Nat} (h : cellsRiseFrom (some l) cells) (ho : o ≤ l) :
    readCell cells o = Config.blankByte := by
  induction cells generalizing l with
  | nil => rfl
  | cons c rest ih =>
    obtain ⟨k, b⟩ := c
    simp only [cellsRiseFrom, aboveLow, Bool.and_eq_true, decide_eq_true_eq] at h
    have hk : k ≠ o := by omega
    simp only [readCell, hk, if_false]
    exact ih h.2 (by omega)

theorem readCell_writeCell_other (cells : List Host.Cell) {o a : Nat} (b : Byte) (h : a ≠ o) :
    readCell (writeCell cells o b) a = readCell cells a := by
  induction cells with
  | nil => simp only [writeCell]; split <;> simp [readCell, Ne.symm h]
  | cons c rest ih =>
    obtain ⟨k, c⟩ := c
    simp only [writeCell]
    split
    · split <;> simp [readCell, Ne.symm h]
    · split
      · subst_vars; split <;> simp [readCell, Ne.symm h]
      · simp only [readCell, ih]

theorem readCell_writeCell_same {lo : Option Nat} {cells : List Host.Cell} (o : Nat) (b : Byte)
    (h : cellsRiseFrom lo cells) : readCell (writeCell cells o b) o = b := by
  induction cells generalizing lo with
  | nil => simp only [writeCell]; split <;> simp_all [readCell]
  | cons c rest ih =>
    obtain ⟨k, c⟩ := c
    simp only [cellsRiseFrom, Bool.and_eq_true] at h
    simp only [writeCell]
    split
    · split
      · rename_i hk hb
        have hne : k ≠ o := by omega
        simp only [readCell, hne, if_false, hb]
        exact readCell_below h.2 (by omega)
      · simp [readCell]
    · split
      · split
        · rename_i hk hb
          rw [hb]; exact readCell_below h.2 (by omega)
        · simp [readCell]
      · rename_i hk hne
        simp only [readCell, Ne.symm hne, if_false]
        exact ih h.2

theorem aboveLow_trans {lo : Option Nat} {a b : Nat} (h : aboveLow lo a) (hab : a < b) : aboveLow lo b := by
  cases lo with
  | none => rfl
  | some l => simp only [aboveLow, decide_eq_true_eq] at h ⊢; omega

theorem cellsRiseFrom_writeCell {lo : Option Nat} {cells : List Host.Cell} (o : Nat) (b : Byte)
    (h : cellsRiseFrom lo cells) (ho : aboveLow lo o) : cellsRiseFrom lo (writeCell cells o b) := by
  induction cells generalizing lo with
  | nil =>
    simp only [writeCell]; split
    · simp [cellsRiseFrom]
    · simp_all [cellsRiseFrom]
  | cons c rest ih =>
    obtain ⟨k, c⟩ := c
    have h' := h
    simp only [cellsRiseFrom, Bool.and_eq_true] at h
    obtain ⟨⟨hk, hc⟩, hr⟩ := h
    simp only [writeCell]
    split
    · split
      · exact h'
      · simp_all [cellsRiseFrom, aboveLow]
    · split
      · rename_i _ he
        subst he
        split
        · cases rest with
          | nil => rfl
          | cons d rest =>
            simp only [cellsRiseFrom, aboveLow, Bool.and_eq_true, decide_eq_true_eq] at hr ⊢
            exact ⟨⟨aboveLow_trans hk hr.1.1, hr.1.2⟩, hr.2⟩
        · simp_all [cellsRiseFrom]
      · rename_i _ hne
        simp only [cellsRiseFrom, Bool.and_eq_true]
        exact ⟨⟨hk, hc⟩, ih hr (by simp only [aboveLow, decide_eq_true_eq]; omega)⟩

theorem writeCell_within {cells : List Host.Cell} {n o : Nat} (b : Byte)
    (h : cells.all fun c => decide (c.1 < n)) (ho : o < n) :
    (writeCell cells o b).all fun c => decide (c.1 < n) := by
  induction cells with
  | nil => simp only [writeCell]; split <;> simp [ho]
  | cons c rest ih =>
    simp only [List.all_cons, Bool.and_eq_true, decide_eq_true_eq] at h
    simp only [writeCell]
    split
    · split <;> simp [ho, h.1, h.2]
    · split
      · split <;> simp [ho, h.2]
      · simp only [List.all_cons, Bool.and_eq_true, decide_eq_true_eq]
        exact ⟨h.1, ih h.2⟩

/-- A byte written reads back. -/
theorem readByte_writeByte_same {m : Memory} (o : Nat) (b : Byte) (h : m.wf) : (m.writeByte o b).readByte o = b :=
  readCell_writeCell_same o b h

/-- Every other byte is left. -/
theorem readByte_writeByte_other (m : Memory) {o a : Nat} (b : Byte) (h : a ≠ o) :
    (m.writeByte o b).readByte a = m.readByte a :=
  readCell_writeCell_other m.cells b h

theorem writeByte_wf {m : Memory} (o : Nat) (b : Byte) (h : m.wf) : (m.writeByte o b).wf :=
  cellsRiseFrom_writeCell o b h rfl

theorem writeByte_within {m : Memory} {n o : Nat} (b : Byte) (h : m.within n) (ho : o < n) :
    (m.writeByte o b).within n :=
  writeCell_within b h ho

@[simp] theorem empty_wf : Memory.empty.wf := rfl

@[simp] theorem empty_within (n : Nat) : Memory.empty.within n := rfl

@[simp] theorem readByte_empty (o : Nat) : Memory.empty.readByte o = Config.blankByte := rfl

/-! ### Sequences -/

@[simp] theorem memRead_length (m : Memory) (a n : Nat) : (memRead m a n).length = n := by
  induction n generalizing a with
  | zero => rfl
  | succ n ih => simp [memRead, ih]

/-- Byte i of a region read is DMEM[a + i]. -/
theorem memRead_getElem (m : Memory) (a n i : Nat) (h : i < (memRead m a n).length) :
    (memRead m a n)[i] = m.readByte (a + i) := by
  induction n generalizing a i with
  | zero => simp at h
  | succ n ih =>
    cases i with
    | zero => rfl
    | succ i =>
      simp only [memRead, List.getElem_cons_succ, ih]
      congr 1; omega

theorem memRead_congr {m m' : Memory} {a n : Nat} (h : ∀ i, i < n → m.readByte (a + i) = m'.readByte (a + i)) :
    memRead m a n = memRead m' a n := by
  apply List.ext_getElem <;> simp
  intro i hi
  simpa [memRead_getElem] using h i hi

/-- A store leaves every byte outside its region. -/
theorem readByte_memWrite_outside (m : Memory) (a x : Nat) (bs : ByteSeq) (h : x < a ∨ a + bs.length ≤ x) :
    (memWrite m a bs).readByte x = m.readByte x := by
  induction bs generalizing m a with
  | nil => rfl
  | cons b rest ih =>
    simp only [List.length_cons] at h
    simp only [memWrite]
    rw [ih _ _ (by omega), readByte_writeByte_other _ _ (by omega)]

theorem memWrite_wf {m : Memory} (a : Nat) (bs : ByteSeq) (h : m.wf) : (memWrite m a bs).wf := by
  induction bs generalizing m a with
  | nil => exact h
  | cons b rest ih => exact ih _ (writeByte_wf a b h)

theorem memWrite_within {m : Memory} {n a : Nat} {bs : ByteSeq} (h : m.within n) (ha : a + bs.length ≤ n) :
    (memWrite m a bs).within n := by
  induction bs generalizing m a with
  | nil => exact h
  | cons b rest ih =>
    simp only [List.length_cons] at ha
    exact ih (writeByte_within b h (by omega)) (by omega)

/-- A sequence stored reads back. -/
theorem readByte_memWrite_inside {m : Memory} (a i : Nat) (bs : ByteSeq) (hm : m.wf) (h : i < bs.length) :
    (memWrite m a bs).readByte (a + i) = bs[i] := by
  induction bs generalizing m a i with
  | nil => simp at h
  | cons b rest ih =>
    simp only [memWrite]
    cases i with
    | zero =>
      rw [readByte_memWrite_outside _ _ _ _ (by omega)]
      exact readByte_writeByte_same a b hm
    | succ i =>
      simp only [List.getElem_cons_succ]
      rw [show a + (i + 1) = a + 1 + i by omega]
      exact ih (a + 1) i (writeByte_wf a b hm) (by simpa using h)

theorem memRead_memWrite {m : Memory} (a : Nat) (bs : ByteSeq) (hm : m.wf) :
    memRead (memWrite m a bs) a bs.length = bs := by
  apply List.ext_getElem
  · simp
  · intro i _ h2
    rw [memRead_getElem, readByte_memWrite_inside a i bs hm h2]

/-! ### A power-on draw -/

theorem drawnMemory_wf (n : Nat) (d : List Host.Cell) : (drawnMemory n d).wf := by
  induction d with
  | nil => rfl
  | cons c rest ih => simp only [drawnMemory]; split <;> [exact writeByte_wf _ _ ih; exact ih]

theorem drawnMemory_within (n : Nat) (d : List Host.Cell) : (drawnMemory n d).within n := by
  induction d with
  | nil => rfl
  | cons c rest ih =>
    simp only [drawnMemory]; split
    · rename_i h; exact writeByte_within _ ih h
    · exact ih

/-! ### Equal contents are equal data -/

theorem readCell_of_mem_head {k : Nat} {b : Byte} {rest : List Host.Cell} : readCell ((k, b) :: rest) k = b := by
  simp [readCell]

theorem cells_ext {lo : Option Nat} {l l' : List Host.Cell} (h : cellsRiseFrom lo l) (h' : cellsRiseFrom lo l')
    (he : ∀ o, readCell l o = readCell l' o) : l = l' := by
  induction l generalizing lo l' with
  | nil =>
    cases l' with
    | nil => rfl
    | cons c rest =>
      have := he c.1
      simp_all [readCell, cellsRiseFrom]
  | cons c rest ih =>
    obtain ⟨k, b⟩ := c
    simp only [cellsRiseFrom, Bool.and_eq_true, decide_eq_true_eq] at h
    cases l' with
    | nil => exact absurd (by simpa [readCell] using he k) h.1.2
    | cons c' rest' =>
      obtain ⟨k', b'⟩ := c'
      simp only [cellsRiseFrom, Bool.and_eq_true, decide_eq_true_eq] at h'
      have hk := he k
      have hk' := he k'
      simp only [readCell, if_true] at hk hk'
      have hkk : k = k' := by
        rcases Nat.lt_trichotomy k k' with hlt | heq | hgt
        · rw [if_neg (by omega), readCell_below h'.2 (by omega)] at hk
          exact absurd hk h.1.2
        · exact heq
        · rw [if_neg (by omega), readCell_below h.2 (by omega)] at hk'
          exact absurd hk'.symm h'.1.2
      subst hkk
      have hb : b = b' := by simpa using hk
      subst hb
      congr 1
      refine ih h.2 h'.2 fun o => ?_
      by_cases ho : k = o
      · subst ho; rw [readCell_below h.2 (le_refl _), readCell_below h'.2 (le_refl _)]
      · simpa [readCell, ho] using he o

/-- Two memories in canonical form with the same contents are the same data. -/
theorem memory_ext {m m' : Memory} (h : m.wf) (h' : m'.wf) (he : ∀ o, m.readByte o = m'.readByte o) : m = m' := by
  cases m; cases m'
  congr 1
  exact cells_ext h h' he

end Sys2Proof.Machine
end

