-- ==== Sys2Proof/Laws/Functions.lean ====
section
/-! SUPPORT. The lengths and ranges of what the commands' functions compute. -/

namespace Sys2Proof.Machine

/-! ### Words and bytes -/

@[simp] theorem be32bytes_length (w : Word) : (be32bytes w).length = 4 := rfl

@[simp] theorem be64bytes_length (v : BitVec 64) : (be64bytes v).length = 8 := rfl

@[simp] theorem bytesOf_length (n : Nat) (v : Byte) : (bytesOf n v).length = n := by simp [bytesOf]

@[simp] theorem xorBytes_length (s : ByteSeq) (v : Byte) : (xorBytes s v).length = s.length := by simp [xorBytes]

theorem zeroPadRight_length {s : ByteSeq} {n : Nat} (h : s.length ≤ n) : (zeroPadRight s n).length = n := by
  simp [zeroPadRight]; omega

@[simp] theorem byteOf_toNat (v k : Nat) : (byteOf v k).toNat = v / 2 ^ (8 * k) % 256 := by simp [byteOf]

@[simp] theorem be32_be32bytes (w : Word) : be32 (be32bytes w) = w := by
  apply BitVec.eq_of_toNat_eq
  have := w.isLt
  simp only [be32, be32bytes, byteAt, List.getD_cons_zero, List.getD_cons_succ, byteOf_toNat, BitVec.toNat_ofNat]
  omega

@[simp] theorem digestBytes_length (h : HashWords) : (digestBytes h).length = 20 := by simp [digestBytes]

/-- The words of a digest are the accumulators it was made of. -/
@[simp] theorem digestWords_digestBytes (h : HashWords) : digestWords (digestBytes h) = h := by
  simp only [digestWords, digestBytes, be32bytes, List.cons_append, List.nil_append, List.take_succ_cons,
    List.take_zero, List.drop_succ_cons, List.drop_zero]
  obtain ⟨a, b, c, d, e⟩ := h
  simp only [HashWords.mk.injEq]
  exact ⟨be32_be32bytes a, be32_be32bytes b, be32_be32bytes c, be32_be32bytes d, be32_be32bytes e⟩

/-! ### SHA-1 and HMAC-SHA-1 -/

@[simp] theorem sha1_length (m : ByteSeq) : (sha1 m).length = 20 := digestBytes_length _

theorem pad_length (m : ByteSeq) : (pad m).length = 64 * blockCount m.length := by
  simp [pad, padZeros, blockCount]; omega

theorem pad_blocks (m : ByteSeq) : (pad m).length / 64 = blockCount m.length := by rw [pad_length]; omega

@[simp] theorem blockWords_length (x : ByteSeq) : (blockWords x).length = 16 := by simp [blockWords]

@[simp] theorem expand_length (k : Nat) (w : List Word) : (expand k w).length = w.length + k := by
  induction k generalizing w with
  | zero => rfl
  | succ k ih => simp [expand, ih]; omega

@[simp] theorem schedule_length (x : ByteSeq) : (schedule x).length = 80 := by simp [schedule]

@[simp] theorem prepareKey_length (key : ByteSeq) : (prepareKey key).length = 64 := by
  simp only [prepareKey]
  split
  · exact zeroPadRight_length (by simp)
  · split
    · exact zeroPadRight_length (by omega)
    · omega

@[simp] theorem hmac_length (key msg : ByteSeq) : (hmac key msg).length = 20 := sha1_length _

/-! ### Base32 -/

@[simp] theorem bitsOf_length (k v : Nat) : (bitsOf k v).length = k := by simp [bitsOf]

@[simp] theorem groupValues_length (k n : Nat) (bits : List Bool) : (groupValues k n bits).length = n := by
  induction n generalizing bits with
  | zero => rfl
  | succ n ih => simp [groupValues, ih]

theorem b32Encode_length (s : ByteSeq) : (b32Encode s).length = b32TextLength s.length := by
  simp [b32Encode, quintetCount, b32TextLength]; omega

theorem b32Decode_length (s : ByteSeq) : (b32Decode s).length = 5 * textCount s / 8 := by simp [b32Decode]

/-! ### HOTP -/

theorem truncationOffset_eq (hs : ByteSeq) : truncationOffset hs = (byteAt hs 19).toNat % 16 := by
  simp only [truncationOffset, BitVec.toNat_and]
  exact Nat.and_two_pow_sub_one_eq_mod _ 4

theorem truncationOffset_lt (hs : ByteSeq) : truncationOffset hs < 16 := by rw [truncationOffset_eq]; omega

theorem masked_toNat (b : Byte) : (b &&& 0x7F).toNat = b.toNat % 128 := by
  simp only [BitVec.toNat_and]
  exact Nat.and_two_pow_sub_one_eq_mod _ 7

theorem truncatedValue_lt (hs : ByteSeq) : truncatedValue hs < 2 ^ 31 := by
  have h1 := (byteAt hs (truncationOffset hs + 1)).isLt
  have h2 := (byteAt hs (truncationOffset hs + 2)).isLt
  have h3 := (byteAt hs (truncationOffset hs + 3)).isLt
  simp only [truncatedValue, masked_toNat]
  omega

theorem codeValue_le (hs : ByteSeq) (digits : Nat) : codeValue hs digits ≤ truncatedValue hs := Nat.mod_le _ _

@[simp] theorem renderCode_length (d digits : Nat) : (renderCode d digits).length = digits := by simp [renderCode]

end Sys2Proof.Machine
end

