-- ==== Sys2Proof/Laws/Base32.lean ====
section
/-! SUPPORT. The bitstreams of 43_base32.md rule R111 as numbers: what cutting a stream into groups gives, and what a
stream built from values of k bits spells. Both directions of the codec are read off these lemmas. -/

namespace Sys2Proof.Machine

/-! ### The value of a stream -/

theorem bitsValue_foldl (bits : List Bool) (v : Nat) :
    bits.foldl (fun v b => 2 * v + b.toNat) v = v * 2 ^ bits.length + bitsValue bits := by
  induction bits generalizing v with
  | nil => simp [bitsValue]
  | cons b bits ih =>
    simp only [bitsValue, List.foldl_cons, List.length_cons, Nat.pow_succ, ih (2 * v + b.toNat), ih (2 * 0 + b.toNat)]
    ring

@[simp] theorem bitsValue_nil : bitsValue [] = 0 := rfl

theorem bitsValue_append (a b : List Bool) : bitsValue (a ++ b) = bitsValue a * 2 ^ b.length + bitsValue b := by
  rw [bitsValue, List.foldl_append, bitsValue_foldl b]; rfl

theorem bitsValue_lt (bits : List Bool) : bitsValue bits < 2 ^ bits.length := by
  induction bits with
  | nil => simp
  | cons b bits ih =>
    rw [← List.singleton_append, bitsValue_append]
    have : bitsValue [b] ≤ 1 := by cases b <;> decide
    simp only [List.singleton_append, List.length_cons, Nat.pow_succ]
    nlinarith [Nat.zero_le (bitsValue bits)]

/-- Zero bits appended on the right shift the value (R112). -/
@[simp] theorem bitsValue_zeros (n : Nat) : bitsValue (List.replicate n false) = 0 := by
  induction n with
  | zero => rfl
  | succ n ih => rw [List.replicate_succ', bitsValue_append, ih]; rfl

/-! ### Cutting a stream into groups -/

/-- Group j of a stream: the bits before it are divided off, those after it cut off (R111). -/
theorem groupValues_getD (k n j : Nat) (bits : List Bool) (hj : j < n) (h : k * (j + 1) ≤ bits.length) :
    (groupValues k n bits).getD j 0 = bitsValue bits / 2 ^ (bits.length - k * (j + 1)) % 2 ^ k := by
  induction n generalizing j bits with
  | zero => omega
  | succ n ih =>
    have hk : k ≤ bits.length := by nlinarith
    have split : bits.take k ++ bits.drop k = bits := List.take_append_drop k bits
    have val : bitsValue bits = bitsValue (bits.take k) * 2 ^ (bits.length - k) + bitsValue (bits.drop k) := by
      rw [← List.length_drop, ← bitsValue_append, split]
    cases j with
    | zero =>
      have lt1 := bitsValue_lt (bits.take k)
      have lt2 := bitsValue_lt (bits.drop k)
      rw [List.length_take, Nat.min_eq_left hk] at lt1
      rw [List.length_drop] at lt2
      rw [groupValues, List.getD_cons_zero, val, Nat.zero_add, Nat.mul_one,
        Nat.add_comm, Nat.add_mul_div_right _ _ (by positivity), Nat.div_eq_of_lt lt2, Nat.zero_add, Nat.mod_eq_of_lt lt1]
    | succ j =>
      have step : k * (j + 1 + 1) = k * (j + 1) + k := by ring
      have hd : k * (j + 1) ≤ (bits.drop k).length := by rw [List.length_drop]; omega
      rw [groupValues, List.getD_cons_succ, ih j (bits.drop k) (by omega) hd, List.length_drop, val,
        show bits.length - k - k * (j + 1) = bits.length - k * (j + 1 + 1) by omega]
      generalize hd' : bits.length - k * (j + 1 + 1) = d
      rw [show bits.length - k = k + k * j + d by rw [Nat.mul_add k j] at step; omega, Nat.pow_add _ _ d,
        ← Nat.mul_assoc, Nat.mul_comm _ (2 ^ d), Nat.mul_add_div (by positivity), Nat.pow_add, Nat.mul_left_comm,
        Nat.mul_add_mod]

/-! ### Building a stream from values -/

/-- The k bits of a value spell it, modulo 2^k (R111). -/
theorem bitsValue_bitsOf (k v : Nat) : bitsValue (bitsOf k v) = v % 2 ^ k := by
  induction k generalizing v with
  | zero => simp [bitsOf, Nat.mod_one]
  | succ k ih =>
    have e : bitsOf (k + 1) v = bitsOf k (v / 2) ++ [v.testBit 0] := by
      simp only [bitsOf, List.range_succ, List.map_append, List.map_cons, List.map_nil, Nat.add_sub_cancel, Nat.sub_self]
      congr 1
      apply List.map_congr_left
      intro i hi
      rw [List.mem_range] at hi
      rw [Nat.testBit_div_two]
      congr 1
      omega
    rw [e, bitsValue_append, ih]
    simp only [List.length_singleton, bitsValue, List.foldl_cons, List.foldl_nil, Nat.testBit_zero,
      Nat.pow_succ]
    have := Nat.mod_mul (x := v) (a := 2) (b := 2 ^ k)
    rw [Nat.mul_comm (2 ^ k), this]
    rcases Nat.mod_two_eq_zero_or_one v with h | h <;> simp [h] <;> ring

/-- A stream of values of k bits each has k bits for each of them. -/
theorem valueStream_length {α : Type} (k : Nat) (f : α → Nat) (l : List α) :
    (l.flatMap fun a => bitsOf k (f a)).length = k * l.length := by
  induction l with
  | nil => simp
  | cons a l ih => simp [ih]; ring

/-- A stream of values of k bits each spells the number whose digits they are in base 2^k, the first most significant
(R111). -/
theorem valueStream_value {α : Type} (k : Nat) (f : α → Nat) (l : List α) (hf : ∀ a ∈ l, f a < 2 ^ k) :
    bitsValue (l.flatMap fun a => bitsOf k (f a)) = l.foldl (fun v a => 2 ^ k * v + f a) 0 := by
  induction l using List.reverseRecOn with
  | nil => rfl
  | append_singleton l a ih =>
    rw [List.flatMap_append, bitsValue_append, ih fun b hb => hf b (by simp [hb])]
    simp [bitsValue_bitsOf, Nat.mod_eq_of_lt (hf a (by simp))]
    ring

end Sys2Proof.Machine
end

