-- ==== Sys2Proof/Laws/State.lean ====
section
/-! SUPPORT. One lemma per field of State and per update of State, each true by definition. -/

namespace Sys2Proof.Machine

variable (s : State)

/-! ### The completion record (R139). -/

@[simp] theorem recordCompletion_cfg (k : BitVec 4) : (recordCompletion k s).cfg = s.cfg := rfl
@[simp] theorem recordCompletion_irqEn (k : BitVec 4) : (recordCompletion k s).irqEn = s.irqEn := rfl
@[simp] theorem recordCompletion_busy (k : BitVec 4) : (recordCompletion k s).busy = false := rfl
@[simp] theorem recordCompletion_done (k : BitVec 4) : (recordCompletion k s).done = true := rfl
@[simp] theorem recordCompletion_accessErr (k : BitVec 4) : (recordCompletion k s).accessErr = s.accessErr := rfl
@[simp] theorem recordCompletion_errCode (k : BitVec 4) : (recordCompletion k s).errCode = k := rfl
@[simp] theorem recordCompletion_cmd (k : BitVec 4) : (recordCompletion k s).cmd = s.cmd := rfl
@[simp] theorem recordCompletion_operands (k : BitVec 4) : (recordCompletion k s).operands = s.operands := rfl
@[simp] theorem recordCompletion_results (k : BitVec 4) : (recordCompletion k s).results = s.results := rfl
@[simp] theorem recordCompletion_dmem (k : BitVec 4) : (recordCompletion k s).dmem = s.dmem := rfl
@[simp] theorem recordCompletion_response (k : BitVec 4) : (recordCompletion k s).response = s.response := rfl
@[simp] theorem recordCompletion_pending (k : BitVec 4) : (recordCompletion k s).pending = s.pending := rfl

/-! ### The outputs of a successful command (R77). -/

@[simp] theorem storeOutputs_cfg (o : Nat) (out : ByteSeq) (w : ResultWrites) : (storeOutputs o out w s).cfg = s.cfg := rfl
@[simp] theorem storeOutputs_irqEn (o : Nat) (out : ByteSeq) (w : ResultWrites) : (storeOutputs o out w s).irqEn = s.irqEn := rfl
@[simp] theorem storeOutputs_busy (o : Nat) (out : ByteSeq) (w : ResultWrites) : (storeOutputs o out w s).busy = s.busy := rfl
@[simp] theorem storeOutputs_done (o : Nat) (out : ByteSeq) (w : ResultWrites) : (storeOutputs o out w s).done = s.done := rfl
@[simp] theorem storeOutputs_accessErr (o : Nat) (out : ByteSeq) (w : ResultWrites) : (storeOutputs o out w s).accessErr = s.accessErr := rfl
@[simp] theorem storeOutputs_errCode (o : Nat) (out : ByteSeq) (w : ResultWrites) : (storeOutputs o out w s).errCode = s.errCode := rfl
@[simp] theorem storeOutputs_cmd (o : Nat) (out : ByteSeq) (w : ResultWrites) : (storeOutputs o out w s).cmd = s.cmd := rfl
@[simp] theorem storeOutputs_operands (o : Nat) (out : ByteSeq) (w : ResultWrites) : (storeOutputs o out w s).operands = s.operands := rfl
@[simp] theorem storeOutputs_results (o : Nat) (out : ByteSeq) (w : ResultWrites) : (storeOutputs o out w s).results = s.results.apply out.length w := rfl
@[simp] theorem storeOutputs_dmem (o : Nat) (out : ByteSeq) (w : ResultWrites) : (storeOutputs o out w s).dmem = memWrite s.dmem o out := rfl
@[simp] theorem storeOutputs_response (o : Nat) (out : ByteSeq) (w : ResultWrites) : (storeOutputs o out w s).response = s.response := rfl
@[simp] theorem storeOutputs_pending (o : Nat) (out : ByteSeq) (w : ResultWrites) : (storeOutputs o out w s).pending = s.pending := rfl

/-! ### A STATUS write (R25). -/

@[simp] theorem writeStatus_cfg (v : Word) : (writeStatus v s).cfg = s.cfg := rfl
@[simp] theorem writeStatus_irqEn (v : Word) : (writeStatus v s).irqEn = s.irqEn := rfl
@[simp] theorem writeStatus_busy (v : Word) : (writeStatus v s).busy = s.busy := rfl
@[simp] theorem writeStatus_done (v : Word) : (writeStatus v s).done = (s.done && !v[1]) := rfl
@[simp] theorem writeStatus_accessErr (v : Word) : (writeStatus v s).accessErr = (s.accessErr && !v[2]) := rfl
@[simp] theorem writeStatus_errCode (v : Word) : (writeStatus v s).errCode = s.errCode := rfl
@[simp] theorem writeStatus_cmd (v : Word) : (writeStatus v s).cmd = s.cmd := rfl
@[simp] theorem writeStatus_operands (v : Word) : (writeStatus v s).operands = s.operands := rfl
@[simp] theorem writeStatus_results (v : Word) : (writeStatus v s).results = s.results := rfl
@[simp] theorem writeStatus_dmem (v : Word) : (writeStatus v s).dmem = s.dmem := rfl
@[simp] theorem writeStatus_response (v : Word) : (writeStatus v s).response = s.response := rfl
@[simp] theorem writeStatus_pending (v : Word) : (writeStatus v s).pending = s.pending := rfl

/-! ### Acceptance (R71). -/

@[simp] theorem accept_cfg (v : Word) : (accept v s).cfg = s.cfg := rfl
@[simp] theorem accept_irqEn (v : Word) : (accept v s).irqEn = s.irqEn := rfl
@[simp] theorem accept_busy (v : Word) : (accept v s).busy = true := rfl
@[simp] theorem accept_done (v : Word) : (accept v s).done = false := rfl
@[simp] theorem accept_accessErr (v : Word) : (accept v s).accessErr = s.accessErr := rfl
@[simp] theorem accept_errCode (v : Word) : (accept v s).errCode = 0 := rfl
@[simp] theorem accept_cmd (v : Word) : (accept v s).cmd = v := rfl
@[simp] theorem accept_operands (v : Word) : (accept v s).operands = s.operands := rfl
@[simp] theorem accept_results (v : Word) : (accept v s).results = s.results := rfl
@[simp] theorem accept_dmem (v : Word) : (accept v s).dmem = s.dmem := rfl
@[simp] theorem accept_response (v : Word) : (accept v s).response = s.response := rfl
@[simp] theorem accept_pending (v : Word) : (accept v s).pending = s.pending := rfl

/-! ### The trace of a refused transaction (R46). -/

@[simp] theorem setAccessErr_cfg : (setAccessErr s).cfg = s.cfg := rfl
@[simp] theorem setAccessErr_irqEn : (setAccessErr s).irqEn = s.irqEn := rfl
@[simp] theorem setAccessErr_busy : (setAccessErr s).busy = s.busy := rfl
@[simp] theorem setAccessErr_done : (setAccessErr s).done = s.done := rfl
@[simp] theorem setAccessErr_accessErr : (setAccessErr s).accessErr = true := rfl
@[simp] theorem setAccessErr_errCode : (setAccessErr s).errCode = s.errCode := rfl
@[simp] theorem setAccessErr_cmd : (setAccessErr s).cmd = s.cmd := rfl
@[simp] theorem setAccessErr_operands : (setAccessErr s).operands = s.operands := rfl
@[simp] theorem setAccessErr_results : (setAccessErr s).results = s.results := rfl
@[simp] theorem setAccessErr_dmem : (setAccessErr s).dmem = s.dmem := rfl
@[simp] theorem setAccessErr_response : (setAccessErr s).response = s.response := rfl
@[simp] theorem setAccessErr_pending : (setAccessErr s).pending = s.pending := rfl

/-! ### A refused transaction (R46, R47). -/

@[simp] theorem refuse_cfg : (refuse s).cfg = s.cfg := rfl
@[simp] theorem refuse_irqEn : (refuse s).irqEn = s.irqEn := rfl
@[simp] theorem refuse_busy : (refuse s).busy = s.busy := rfl
@[simp] theorem refuse_done : (refuse s).done = s.done := rfl
@[simp] theorem refuse_accessErr : (refuse s).accessErr = true := rfl
@[simp] theorem refuse_errCode : (refuse s).errCode = s.errCode := rfl
@[simp] theorem refuse_cmd : (refuse s).cmd = s.cmd := rfl
@[simp] theorem refuse_operands : (refuse s).operands = s.operands := rfl
@[simp] theorem refuse_results : (refuse s).results = s.results := rfl
@[simp] theorem refuse_dmem : (refuse s).dmem = s.dmem := rfl
@[simp] theorem refuse_response : (refuse s).response = some .busError := rfl
@[simp] theorem refuse_pending : (refuse s).pending = s.pending := rfl

/-! ### The registers' reset (R36). -/

@[simp] theorem resetRegisters_cfg : (resetRegisters s).cfg = s.cfg := rfl
@[simp] theorem resetRegisters_irqEn : (resetRegisters s).irqEn = false := rfl
@[simp] theorem resetRegisters_busy : (resetRegisters s).busy = false := rfl
@[simp] theorem resetRegisters_done : (resetRegisters s).done = false := rfl
@[simp] theorem resetRegisters_accessErr : (resetRegisters s).accessErr = false := rfl
@[simp] theorem resetRegisters_errCode : (resetRegisters s).errCode = 0 := rfl
@[simp] theorem resetRegisters_cmd : (resetRegisters s).cmd = 0 := rfl
@[simp] theorem resetRegisters_operands : (resetRegisters s).operands = Operands.reset := rfl
@[simp] theorem resetRegisters_results : (resetRegisters s).results = Results.reset := rfl
@[simp] theorem resetRegisters_dmem : (resetRegisters s).dmem = s.dmem := rfl
@[simp] theorem resetRegisters_response : (resetRegisters s).response = s.response := rfl
@[simp] theorem resetRegisters_pending : (resetRegisters s).pending = s.pending := rfl

/-! ### The power-on reset (R152). -/

@[simp] theorem powerOnReset_cfg (d : List Host.Cell) : (powerOnReset d s).cfg = s.cfg := rfl
@[simp] theorem powerOnReset_irqEn (d : List Host.Cell) : (powerOnReset d s).irqEn = false := rfl
@[simp] theorem powerOnReset_busy (d : List Host.Cell) : (powerOnReset d s).busy = false := rfl
@[simp] theorem powerOnReset_done (d : List Host.Cell) : (powerOnReset d s).done = false := rfl
@[simp] theorem powerOnReset_accessErr (d : List Host.Cell) : (powerOnReset d s).accessErr = false := rfl
@[simp] theorem powerOnReset_errCode (d : List Host.Cell) : (powerOnReset d s).errCode = 0 := rfl
@[simp] theorem powerOnReset_cmd (d : List Host.Cell) : (powerOnReset d s).cmd = 0 := rfl
@[simp] theorem powerOnReset_operands (d : List Host.Cell) : (powerOnReset d s).operands = Operands.reset := rfl
@[simp] theorem powerOnReset_results (d : List Host.Cell) : (powerOnReset d s).results = Results.reset := rfl
@[simp] theorem powerOnReset_dmem (d : List Host.Cell) : (powerOnReset d s).dmem = drawnMemory s.cfg.dmemBytes d := rfl
@[simp] theorem powerOnReset_response (d : List Host.Cell) : (powerOnReset d s).response = s.response := rfl
@[simp] theorem powerOnReset_pending (d : List Host.Cell) : (powerOnReset d s).pending = s.pending := rfl

/-! ### The port's answer (R40). -/

@[simp] theorem respond_cfg (r : Response) : (respond r s).cfg = s.cfg := rfl
@[simp] theorem respond_irqEn (r : Response) : (respond r s).irqEn = s.irqEn := rfl
@[simp] theorem respond_busy (r : Response) : (respond r s).busy = s.busy := rfl
@[simp] theorem respond_done (r : Response) : (respond r s).done = s.done := rfl
@[simp] theorem respond_accessErr (r : Response) : (respond r s).accessErr = s.accessErr := rfl
@[simp] theorem respond_errCode (r : Response) : (respond r s).errCode = s.errCode := rfl
@[simp] theorem respond_cmd (r : Response) : (respond r s).cmd = s.cmd := rfl
@[simp] theorem respond_operands (r : Response) : (respond r s).operands = s.operands := rfl
@[simp] theorem respond_results (r : Response) : (respond r s).results = s.results := rfl
@[simp] theorem respond_dmem (r : Response) : (respond r s).dmem = s.dmem := rfl
@[simp] theorem respond_response (r : Response) : (respond r s).response = some r := rfl
@[simp] theorem respond_pending (r : Response) : (respond r s).pending = s.pending := rfl

end Sys2Proof.Machine
end

