-- ==== Sys2Proof/Laws/Commands.lean ====
section
/-! SUPPORT. What a command can do, said once: `exec` is `finish` of one `ExecResult`, and that result is an error or an
output inside DMEM at DST_ADDR. -/

namespace Sys2Proof.Machine

/-! ### The shared checks -/

/-- The checks pass exactly when every region is in bounds. -/
theorem checkRegions_eq (c : Config) (rs : List Region) (k : ExecResult) :
    checkRegions c rs k = if rs.all (·.inBounds c) then k else .err .bounds := by
  induction rs with
  | nil => simp [checkRegions]
  | cons r rest ih =>
    simp only [checkRegions, ih, List.all_cons, Bool.and_eq_true]
    by_cases h : r.inBounds c = true <;> simp [h]

theorem checkDigits_eq (digits : Nat) (k : ExecResult) :
    checkDigits digits k = if 1 ≤ digits ∧ digits ≤ 10 then k else .err .range := by
  simp [checkDigits, digitsInRange]

@[simp] theorem inBounds_iff (c : Config) (r : Region) : r.inBounds c = true ↔ r.addr + r.len ≤ c.dmemBytes := by
  simp [Region.inBounds]

/-! ### One form for the seven commands -/

/-- `Exec` of a command (R73). -/
def evalCommand (i : Instr) (c : Config) (r : Operands) (m : Memory) : ExecResult :=
  match i with
  | .sha1 => evalSha1 c r m
  | .prepareKey => evalPrepareKey c r m
  | .hmacSha1 => evalHmacSha1 c r m
  | .b32Encode => evalB32Encode c r m
  | .b32Decode => evalB32Decode c r m
  | .hotpTruncate digits => evalHotpTruncate digits c r m
  | .hotp digits => evalHotp digits c r m

/-- Every command finishes with its result: it answers a next state. -/
theorem exec_eq_finish (i : Instr) (s : State) :
    exec i s = .next (finish (evalCommand i s.cfg s.operands s.dmem) s) := by cases i <;> rfl

/-- The kinds of error a command ends with: INVARIANT_ERROR and ILLEGAL_CMD are not among them. -/
def ErrorKind.fromExec (e : ErrorKind) : Prop := e = .format ∨ e = .range ∨ e = .bounds

/-- What a successful command writes to the result registers. -/
def ResultWrites.ofCommand (i : Instr) (w : ResultWrites) : Prop :=
  (w.digest.isSome = writesDigest i) ∧
  ((writesTruncation i = false ∧ w.truncOffset = none ∧ w.truncP = none ∧ w.code = none) ∨
    (writesTruncation i = true ∧ ∃ hs digits, w.truncOffset = some (BitVec.ofNat 32 (truncationOffset hs)) ∧
      w.truncP = some (BitVec.ofNat 32 (truncatedValue hs)) ∧ w.code = some (BitVec.ofNat 32 (codeValue hs digits))))

/-- Everything `Exec` can return: an error, or an output that fits DMEM at DST_ADDR. -/
theorem evalCommand_cases (i : Instr) (s : State) :
    (∃ e : ErrorKind, e.fromExec ∧ evalCommand i s.cfg s.operands s.dmem = .err e) ∨
    ∃ out w, evalCommand i s.cfg s.operands s.dmem = .ok s.operands.dstAddr.toNat out w ∧
      out.length = storedLength i s ∧ s.operands.dstAddr.toNat + out.length ≤ s.cfg.dmemBytes ∧ w.ofCommand i := by
  cases i with
  | sha1 =>
    simp only [evalCommand, evalSha1, checkRegions_eq]
    split
    · rename_i h
      simp only [List.all_cons, Bool.and_eq_true, inBounds_iff, dstRegion] at h
      exact .inr ⟨_, _, rfl, by simp [storedLength], by simpa using h.2.1, by simp [ResultWrites.ofCommand, writesDigest, writesTruncation]⟩
    · exact .inl ⟨_, .inr (.inr rfl), rfl⟩
  | prepareKey =>
    simp only [evalCommand, evalPrepareKey, checkRegions_eq]
    split
    · rename_i h
      simp only [List.all_cons, Bool.and_eq_true, inBounds_iff, dstRegion] at h
      exact .inr ⟨_, _, rfl, by simp [storedLength], by simpa using h.2.1, by simp [ResultWrites.ofCommand, writesDigest, writesTruncation]⟩
    · exact .inl ⟨_, .inr (.inr rfl), rfl⟩
  | hmacSha1 =>
    simp only [evalCommand, evalHmacSha1, checkRegions_eq]
    split
    · rename_i h
      simp only [List.all_cons, Bool.and_eq_true, inBounds_iff, dstRegion] at h
      exact .inr ⟨_, _, rfl, by simp [storedLength], by simpa using h.2.2.1, by simp [ResultWrites.ofCommand, writesDigest, writesTruncation]⟩
    · exact .inl ⟨_, .inr (.inr rfl), rfl⟩
  | b32Encode =>
    simp only [evalCommand, evalB32Encode, checkRegions_eq]
    split
    · rename_i h
      simp only [List.all_cons, Bool.and_eq_true, inBounds_iff, dstRegion] at h
      exact .inr ⟨_, _, rfl, by simp [storedLength, b32Encode_length, readRegion, srcRegion], by simpa [b32Encode_length, readRegion, srcRegion] using h.2.1, by simp [ResultWrites.ofCommand, writesDigest, writesTruncation]⟩
    · exact .inl ⟨_, .inr (.inr rfl), rfl⟩
  | b32Decode =>
    simp only [evalCommand, evalB32Decode, checkRegions_eq]
    split
    · split
      · split
        · rename_i h
          simp only [List.all_cons, List.all_nil, Bool.and_true, inBounds_iff, dstRegion] at h
          exact .inr ⟨_, _, rfl, rfl, h, by simp [ResultWrites.ofCommand, writesDigest, writesTruncation]⟩
        · exact .inl ⟨_, .inr (.inr rfl), rfl⟩
      · exact .inl ⟨_, .inl rfl, rfl⟩
    · exact .inl ⟨_, .inr (.inr rfl), rfl⟩
  | hotpTruncate digits =>
    simp only [evalCommand, evalHotpTruncate, checkDigits_eq, checkRegions_eq]
    split
    · split
      · rename_i h
        simp only [List.all_cons, Bool.and_eq_true, inBounds_iff, dstRegion] at h
        exact .inr ⟨_, _, rfl, by simp [storedLength], by simpa using h.2.1, rfl, .inr ⟨rfl, _, digits, rfl, rfl, rfl⟩⟩
      · exact .inl ⟨_, .inr (.inr rfl), rfl⟩
    · exact .inl ⟨_, .inr (.inl rfl), rfl⟩
  | hotp digits =>
    simp only [evalCommand, evalHotp, checkDigits_eq, checkRegions_eq]
    split
    · split
      · rename_i h
        simp only [List.all_cons, Bool.and_eq_true, inBounds_iff, dstRegion] at h
        exact .inr ⟨_, _, rfl, by simp [storedLength], by simpa using h.2.1, rfl, .inr ⟨rfl, _, digits, rfl, rfl, rfl⟩⟩
      · exact .inl ⟨_, .inr (.inr rfl), rfl⟩
    · exact .inl ⟨_, .inr (.inl rfl), rfl⟩

/-! ### The end of a command -/

/-- What `finish` does: the completion record, and on success the outputs. -/
theorem finish_cases (r : ExecResult) (s : State) :
    (∃ e, r = .err e ∧ finish r s = s.failed e.toCode) ∨
    ∃ o out w, r = .ok o out w ∧ finish r s =
      { s with dmem := memWrite s.dmem o out, results := s.results.apply out.length w,
               busy := false, done := true, errCode := 0 } := by
  cases r with
  | err e => exact .inl ⟨e, rfl, rfl⟩
  | ok o out w => exact .inr ⟨o, out, w, rfl, rfl⟩

/-- Everything the engine's turn can do: nothing while BUSY = 0; otherwise it finishes with an error, ILLEGAL_CMD among
them, or with a command's output. -/
theorem engineTurn_cases (s : State) :
    (s.busy = false ∧ engineTurn s = .next s) ∨
    (s.busy = true ∧ ∃ e : ErrorKind, (e.fromExec ∨ e = .illegalCmd) ∧ engineTurn s = .next (s.failed e.toCode)) ∨
    (s.busy = true ∧ ∃ i out w, decode s.cmd = .ok i ∧ out.length = storedLength i s ∧
      s.operands.dstAddr.toNat + out.length ≤ s.cfg.dmemBytes ∧ w.ofCommand i ∧
      engineTurn s = .next (s.completed out (s.results.apply out.length w))) := by
  by_cases hb : s.busy = true
  · right
    cases hd : decode s.cmd with
    | error e => exact .inl ⟨hb, _, .inr rfl, by simp [engineTurn, hb, hd]; rfl⟩
    | ok i =>
      have he : engineTurn s = exec i s := by simp [engineTurn, hb, hd]
      rw [exec_eq_finish] at he
      rcases evalCommand_cases i s with ⟨e, hk, hr⟩ | ⟨out, w, hr, hl, hfit, hw⟩
      · rw [hr] at he; exact .inl ⟨hb, e, .inl hk, he⟩
      · rw [hr] at he; exact .inr ⟨hb, i, out, w, rfl, hl, hfit, hw, he⟩
  · exact .inl ⟨by simpa using hb, by simp [engineTurn, hb]⟩

/-- The invariant, spelled out. -/
theorem sound_iff (s : State) : s.sound = true ↔
    (s.dmem.wf = true ∧ s.dmem.within s.cfg.dmemBytes = true) ∧
    (s.busy = true → s.done = false ∧ s.errCode = 0) ∧
    (s.errCode = 0 ∨ s.errCode = 1 ∨ s.errCode = 2 ∨ s.errCode = 4 ∨ s.errCode = 5) ∧
    s.results.truncOffset.toNat ≤ 15 ∧ s.results.truncP.toNat < 2 ^ 31 ∧
    s.results.code.toNat ≤ s.results.truncP.toNat ∧ s.results.outLen.toNat ≤ s.cfg.dmemBytes := by
  simp only [State.sound, State.dmemSound, State.statusSound, State.errCodeProduced, State.resultsSound,
    Bool.and_eq_true, Bool.or_eq_true, Bool.not_eq_true', decide_eq_true_eq, List.contains_iff_mem, List.mem_cons,
    List.not_mem_nil, or_false, beq_iff_eq, and_assoc]
  cases s.busy <;> simp

/-- DMEM_BYTES is at most 65536, so every length in DMEM fits a register. -/
theorem dmemBytes_le (c : Config) : c.dmemBytes ≤ 65536 := by
  have : 8 + c.dmemExp.val ≤ 16 := by omega
  calc c.dmemBytes ≤ 2 ^ 16 := Nat.pow_le_pow_right (by omega) this
    _ = 65536 := rfl

end Sys2Proof.Machine
end

