-- ==== Sys2Proof/Laws/HostPort.lean ====
section
/-! SUPPORT. What a host transaction and a step can do, said once. -/

namespace Sys2Proof.Machine

/-! ### The address map -/

/-- A register's offset hits that register and no other. -/
@[simp] theorem regAt_offset (r : Reg) : regAt r.offset = some r := by cases r <;> rfl

theorem offset_lt (r : Reg) : r.offset < 0x64 := by cases r <;> decide

theorem offset_aligned (r : Reg) : r.offset % 4 = 0 := by cases r <;> rfl

theorem regAt_some {a : Nat} {r : Reg} (h : regAt a = some r) : a = r.offset := by
  have := List.find?_some h
  exact (beq_iff_eq.mp this).symm

theorem regAt_none {a : Nat} (h : ∀ r : Reg, r.offset ≠ a) : regAt a = none := by
  cases hr : regAt a with
  | none => rfl
  | some r => exact absurd (regAt_some hr).symm (h r)

@[simp] theorem regAddress_toNat (r : Reg) : (regAddress r).toNat = r.offset := by
  have := offset_lt r
  simp [regAddress, BitVec.toNat_ofNat]; omega

/-- A 4-byte transaction at a register's offset goes to that register. -/
@[simp] theorem target_reg (c : Config) (r : Reg) : target c (regAddress r) .word = some (.reg r) := by
  have h1 := offset_lt r
  have h2 := offset_aligned r
  unfold target
  rw [regAddress_toNat, if_pos (by unfold dmemBase; omega), if_pos ⟨rfl, h2⟩, regAt_offset]; rfl

/-- An aligned transaction in the DMEM window goes to DMEM. -/
theorem target_dmem {s : State} {a : Word} {n : AccessSize} (h : s.inDmemWindow a n) :
    target s.cfg a n = some (.dmem (a.toNat - 0x10000)) := by
  obtain ⟨h1, h2, h3⟩ := h
  unfold target dmemBase
  rw [if_neg (by omega), if_pos (by omega), if_pos h3]

/-- The whole of what a well-formed transaction can be (R41 to R43). -/
theorem target_cases (s : State) (a : Word) (n : AccessSize) :
    target s.cfg a n = none ∨ (∃ r, target s.cfg a n = some (.reg r) ∧ a = regAddress r ∧ n = .word) ∨
    (s.inDmemWindow a n ∧ target s.cfg a n = some (.dmem (a.toNat - 0x10000))) := by
  by_cases h1 : a.toNat < dmemBase
  · by_cases h2 : n = .word ∧ a.toNat % 4 = 0
    · cases hr : regAt a.toNat with
      | none => exact .inl (by unfold target; simp [h1, h2, hr])
      | some r =>
        refine .inr (.inl ⟨r, by unfold target; simp [h1, h2, hr], ?_, h2.1⟩)
        apply BitVec.eq_of_toNat_eq
        rw [regAddress_toNat]; exact regAt_some hr
    · exact .inl (by unfold target; simp only [h1, if_true, h2, if_false])
  · by_cases h2 : a.toNat < dmemBase + s.cfg.dmemBytes
    · by_cases h3 : a.toNat % n.bytes = 0
      · have hw : s.inDmemWindow a n := ⟨by simp only [dmemBase] at h1; omega, h2, h3⟩
        exact .inr (.inr ⟨hw, target_dmem hw⟩)
      · exact .inl (by unfold target; simp [h1, h2, h3])
    · exact .inl (by unfold target; simp [h1, h2])

theorem dmemBytes_pos (c : Config) : 256 ≤ c.dmemBytes := by
  calc 256 = 2 ^ 8 := rfl
    _ ≤ c.dmemBytes := Nat.pow_le_pow_right (by omega) (by omega)

theorem dmemBytes_mod (c : Config) : c.dmemBytes % 4 = 0 := by
  have : c.dmemBytes = 4 * 2 ^ (6 + c.dmemExp.val) := by
    rw [Config.dmemBytes, show 8 + c.dmemExp.val = 2 + (6 + c.dmemExp.val) by omega, Nat.pow_add]
  omega

/-- An aligned DMEM transaction lies wholly inside DMEM (R42). -/
theorem inDmemWindow_fits {s : State} {a : Word} {n : AccessSize} (h : s.inDmemWindow a n) :
    a.toNat - 0x10000 + n.bytes ≤ s.cfg.dmemBytes := by
  obtain ⟨h1, h2, h3⟩ := h
  have := dmemBytes_mod s.cfg
  cases n <;> simp only [AccessSize.bytes] at * <;> omega

@[simp] theorem leBytes_length (n : Nat) (v : Word) : (leBytes n v).length = n := by simp [leBytes]

/-! ### A transaction -/

/-- Everything a read can do. -/
theorem hostRead_cases (a : Word) (n : AccessSize) (s : State) :
    hostRead a n s = respond .busError s ∨ (∃ v, hostRead a n s = respond (.data v) s) ∨
    (s.busy = true ∧ hostRead a n s = refuse s) := by
  rcases target_cases s a n with h | ⟨r, h, -, -⟩ | ⟨-, h⟩ <;> unfold hostRead <;> rw [h] <;> dsimp only
  · exact .inl rfl
  · exact .inr (.inl ⟨_, rfl⟩)
  · split
    · rename_i hb; exact .inr (.inr ⟨hb, rfl⟩)
    · exact .inr (.inl ⟨_, rfl⟩)

/-- Everything a write can do. -/
theorem hostWrite_cases (a : Word) (n : AccessSize) (v : Word) (s : State) :
    hostWrite a n v s = respond .busError s ∨ (s.busy = true ∧ hostWrite a n v s = refuse s) ∨
    (∃ r, a = regAddress r ∧ n = .word ∧ (s.busy = true → writeLocked r = false) ∧
      hostWrite a n v s = respond .ok (writeReg r v s)) ∨
    (s.busy = false ∧ s.inDmemWindow a n ∧ hostWrite a n v s =
      respond .ok { s with dmem := memWrite s.dmem (a.toNat - 0x10000) (leBytes n.bytes v) }) := by
  rcases target_cases s a n with h | ⟨r, h, ha, hn⟩ | ⟨hw, h⟩ <;> unfold hostWrite <;> rw [h] <;> dsimp only
  · exact .inl rfl
  · split
    · rename_i hb
      simp only [Bool.and_eq_true] at hb
      exact .inr (.inl ⟨hb.1, rfl⟩)
    · rename_i hb
      refine .inr (.inr (.inl ⟨r, ha, hn, ?_, rfl⟩))
      intro hs; simpa [hs] using hb
  · split
    · rename_i hb; exact .inr (.inl ⟨hb, rfl⟩)
    · rename_i hb; exact .inr (.inr (.inr ⟨by simpa using hb, hw, rfl⟩))

/-- Everything a register write can do to the state. -/
theorem writeReg_cases (r : Reg) (v : Word) (s : State) :
    writeReg r v s = s ∨ (∃ ops, writeReg r v s = { s with operands := ops }) ∨
    (r = .ctrl ∧ v[1] = true ∧ writeReg r v s = resetRegisters s) ∨
    (r = .ctrl ∧ v[1] = false ∧ writeReg r v s = { s with irqEn := v[0] }) ∨
    (r = .status ∧ writeReg r v s = writeStatus v s) ∨ (r = .cmd ∧ writeReg r v s = accept v s) := by
  cases r
  case ctrl =>
    cases h : v[1] with
    | true => exact .inr (.inr (.inl ⟨rfl, rfl, if_pos h⟩))
    | false => exact .inr (.inr (.inr (.inl ⟨rfl, rfl, if_neg (by rw [h]; decide)⟩)))
  case status => exact .inr (.inr (.inr (.inr (.inl ⟨rfl, rfl⟩))))
  case cmd => exact .inr (.inr (.inr (.inr (.inr ⟨rfl, rfl⟩))))
  all_goals first | exact .inl rfl | exact .inr (.inl ⟨_, rfl⟩)

/-! ### A step -/

/-- Everything a step can be. -/
theorem step_cases (s : State) :
    (s.pending = [] ∧ step s = engineTurn s) ∨
    (∃ t rest, s.pending = .host t :: rest ∧ step s = .next (hostStep t { s with pending := rest })) ∨
    (∃ rest, s.pending = .complete :: rest ∧ step s = engineTurn { s with pending := rest }) ∨
    (∃ d rest, s.pending = .powerOn d :: rest ∧ step s = .next (powerOnReset d { s with pending := rest })) := by
  cases hp : s.pending with
  | nil => exact .inl ⟨rfl, by simp [step, hp]⟩
  | cons e rest =>
    cases e with
    | host t => exact .inr (.inl ⟨t, rest, rfl, by simp [step, hp]⟩)
    | complete => exact .inr (.inr (.inl ⟨rest, rfl, by simp [step, hp]⟩))
    | powerOn d => exact .inr (.inr (.inr ⟨d, rest, rfl, by simp [step, hp]⟩))

end Sys2Proof.Machine
end

