-- ==== Sys2Proof/Laws/PerInstr.lean ====
section
/-! SUPPORT. Lemmas per command, about its encoding. -/

namespace Sys2Proof.Laws

/-- The OP field of a command (30_encoding.md rule R60). -/
def opOf : Instr → Nat
  | .sha1 => 0x1
  | .prepareKey => 0x2
  | .hmacSha1 => 0x3
  | .b32Encode => 0x4
  | .b32Decode => 0x5
  | .hotpTruncate _ => 0x6
  | .hotp _ => 0x7

/-- The DIGITS field of a command (R61). -/
def digitsOf : Instr → Nat
  | .sha1 => 0
  | .prepareKey => 0
  | .hmacSha1 => 0
  | .b32Encode => 0
  | .b32Decode => 0
  | .hotpTruncate d => d
  | .hotp d => d

/-- The four fields of the command's word hold what rule R61 says. -/
def EncodedFields.Statement (i : Instr) : Prop :=
  i.wellFormed = true → cmdOp (encode i) = opOf i ∧ cmdReservedLow (encode i) = 0 ∧
    cmdDigits (encode i) = digitsOf i ∧ cmdReservedHigh (encode i) = 0

theorem EncodedFields.sha1 : EncodedFields.Statement .sha1 := fun _ => by decide

theorem EncodedFields.prepareKey : EncodedFields.Statement .prepareKey := fun _ => by decide

theorem EncodedFields.hmacSha1 : EncodedFields.Statement .hmacSha1 := fun _ => by decide

theorem EncodedFields.b32Encode : EncodedFields.Statement .b32Encode := fun _ => by decide

theorem EncodedFields.b32Decode : EncodedFields.Statement .b32Decode := fun _ => by decide

theorem EncodedFields.hotpTruncate (digits : Nat) : EncodedFields.Statement (.hotpTruncate digits) := by
  intro h
  have hd : digits < 16 := of_decide_eq_true h
  interval_cases digits <;> decide

theorem EncodedFields.hotp (digits : Nat) : EncodedFields.Statement (.hotp digits) := by
  intro h
  have hd : digits < 16 := of_decide_eq_true h
  interval_cases digits <;> decide

end Sys2Proof.Laws
end

