-- ==== Sys2Proof/Laws/Sequencer.lean ====
section
/-! SUPPORT. The passes of a command: the last one gives its digest, and their blocks are those of the table of
70_reset_and_hazards.md rule R162. -/

namespace Sys2Proof.Machine

/-- The HMAC is the digest of the outer pass (R105). -/
theorem hmac_eq_outer_digest (key msg : ByteSeq) : hmac key msg = sha1 (outerMessage key msg) := rfl

@[simp] theorem innerMessage_length (key msg : ByteSeq) : (innerMessage key msg).length = 64 + msg.length := by
  simp [innerMessage, innerPad]

@[simp] theorem outerMessage_length (key msg : ByteSeq) : (outerMessage key msg).length = 84 := by
  simp [outerMessage, outerPad]

/-- The blocks that hashing a long key adds (R106). -/
def keyCalls (K : Nat) : Nat := if K > 64 then blockCount K else 0

theorem keyPasses_calls (key : ByteSeq) :
    ((keyPasses key).map fun m => blockCount m.length).sum = keyCalls key.length := by
  simp only [keyPasses, keyCalls]
  split <;> simp

theorem hmacPasses_calls (key msg : ByteSeq) :
    ((hmacPasses key msg).map fun m => blockCount m.length).sum
      = keyCalls key.length + (blockCount (64 + msg.length) + 2) := by
  simp [hmacPasses, keyPasses_calls, show blockCount 84 = 2 from rfl]

/-- The table of R162. -/
theorem compressionCalls_table (r : Operands) (m : Memory) (digits : Nat) :
    compressionCalls .sha1 r m = blockCount r.srcLen.toNat ∧
    compressionCalls .prepareKey r m = keyCalls r.keyLen.toNat ∧
    compressionCalls .hmacSha1 r m = keyCalls r.keyLen.toNat + (blockCount (64 + r.srcLen.toNat) + 2) ∧
    compressionCalls .b32Encode r m = 0 ∧ compressionCalls .b32Decode r m = 0 ∧
    compressionCalls (.hotpTruncate digits) r m = 0 ∧
    compressionCalls (.hotp digits) r m = keyCalls r.keyLen.toNat + 4 := by
  simp [compressionCalls, commandPasses, keyPasses_calls, hmacPasses_calls, readRegion, srcRegion, keyRegion,
    show blockCount (64 + 8) = 2 from rfl]

end Sys2Proof.Machine
end

