-- ==== Sys2Proof/Tests/Slice0.lean ====
section
/-! SUPPORT. The model's own tests. Expected values come from spec/95_test_vectors.md and from the encodings of
30_encoding.md; each comment names the section. The witnesses at the end meet the hypotheses of the statements. -/

namespace Sys2Proof.Tests

open Sys2Proof Sys2Proof.Machine

/-! ## WellFormed: each check refuses an ill-formed term -/

theorem test_wellFormed_refuses_wide_digits :
    (Instr.hotp 16).wellFormed = false ∧ (Instr.hotpTruncate 16).wellFormed = false := by decide

theorem test_wellFormed_accepts : (Instr.hotp 15).wellFormed = true ∧ Instr.sha1.wellFormed = true := by decide

/-! ## Decoding: words written out from the encodings (30_encoding.md R61, R63; 95 section 2.5) -/

theorem test_decode_plain_commands :
    decode 0b00000000000000000000000000000001 = .ok .sha1 ∧
    decode 0b00000000000000000000000000000010 = .ok .prepareKey ∧
    decode 0b00000000000000000000000000000011 = .ok .hmacSha1 ∧
    decode 0b00000000000000000000000000000100 = .ok .b32Encode ∧
    decode 0b00000000000000000000000000000101 = .ok .b32Decode := ⟨rfl, rfl, rfl, rfl, rfl⟩

theorem test_decode_digit_commands :
    decode 0b00000000000000000000011000000110 = .ok (.hotpTruncate 6) ∧
    decode 0b00000000000000000000101000000111 = .ok (.hotp 10) ∧
    decode 0b00000000000000000000111100000110 = .ok (.hotpTruncate 15) ∧
    decode 0b00000000000000000000000000000111 = .ok (.hotp 0) := ⟨rfl, rfl, rfl, rfl⟩

theorem test_decode_illegal_by_name :
    decode 0x00000000 = .error .reservedOpcode ∧ decode 0x00000008 = .error .reservedOpcode ∧
    decode 0x0000000F = .error .reservedOpcode ∧ decode 0x00000101 = .error .digitsNotZero ∧
    decode 0x00000011 = .error .reservedBits ∧ decode 0x00001001 = .error .reservedBits ∧
    decode 0x80000001 = .error .reservedBits ∧ decode 0x00000B17 = .error .reservedBits :=
  ⟨rfl, rfl, rfl, rfl, rfl, rfl, rfl, rfl⟩

/-! ## Small states -/

/-- The reset state with some bytes in DMEM. -/
def withBytes (o : Nat) (bs : ByteSeq) : State := { State.reset with dmem := memWrite Memory.empty o bs }

/-- With the source region and the destination set. -/
def withSrc (s : State) (a n d : Word) : State :=
  { s with operands := { s.operands with srcAddr := a, srcLen := n, dstAddr := d } }

/-- With the key region set. -/
def withKey (s : State) (a n : Word) : State := { s with operands := { s.operands with keyAddr := a, keyLen := n } }

/-- With an accepted CMD word. -/
def withCmd (s : State) (w : Word) : State := { s with cmd := w, busy := true }

/-- The next state, if there is one. -/
def nextOf (o : Host.Outcome State Fault Refusal) : Option State :=
  match o with
  | .next s => some s
  | .fault _ => none
  | .refused _ => none

/-- The ASCII codes of a text. -/
def asciiOf (text : List Char) : ByteSeq := text.map ascii

/-- "12345678901234567890", the RFC 4226 key (95 L1-3). -/
def rfcKey : ByteSeq :=
  [0x31, 0x32, 0x33, 0x34, 0x35, 0x36, 0x37, 0x38, 0x39, 0x30, 0x31, 0x32, 0x33, 0x34, 0x35, 0x36, 0x37, 0x38, 0x39, 0x30]

/-! ## SHA1 and the engine (95 section 2.1) -/

theorem test_sha1_abc : (nextOf (exec .sha1 (withSrc (withBytes 0 [0x61, 0x62, 0x63]) 0 3 0x40))).map
    (fun t => (memRead t.dmem 0x40 20, t.results.digest.h0, t.results.outLen, statusWord t)) =
    some ([0xa9, 0x99, 0x3e, 0x36, 0x47, 0x06, 0x81, 0x6a, 0xba, 0x3e, 0x25, 0x71, 0x78, 0x50, 0xc2, 0x6c, 0x9c, 0xd0,
      0xd8, 0x9d], 0xA9993E36, 20, 2) := by decide +kernel

theorem test_sha1_two_blocks : (digestWords (sha1 (List.replicate 56 0x61))) =
    ⟨0xc2db330f, 0x6083854c, 0x99d4b5bf, 0xb6e8f29f, 0x201be699⟩ := by decide +kernel

theorem test_sha1_round_19_and_20 :
    let w := schedule (pad [0x61, 0x62, 0x63])
    (rounds 0 (w.take 20) (loadWorking hInit)).a = 0xfd9e1d7d ∧
    (rounds 0 (w.take 21) (loadWorking hInit)).a = 0x1a37b0ca := by decide +kernel

theorem test_rotl32 : rotl32 0x80000000 1 = 0x00000001 ∧ rotl32 0x12345678 5 = 0x468acf02 ∧
    rotl32 0x12345678 30 = 0x048d159e := by decide

/-! ## PREPARE_KEY and HMAC_SHA1 (95 section 2.2) -/

theorem test_prepareKey_jefe : (nextOf (exec .prepareKey (withKey (withBytes 0 (asciiOf "Jefe".toList)) 0 4))).map
    (fun t => (memRead t.dmem 0 6, t.results.outLen, t.results.digest)) =
    some ([0x4a, 0x65, 0x66, 0x65, 0x00, 0x00], 64, HashWords.zero) := by decide +kernel

theorem test_prepareKey_65_bytes : (prepareKey (List.replicate 65 0x6b)).take 4 = [0xe5, 0xf4, 0x12, 0x11] := by
  decide +kernel

theorem test_hmac_rfc2202_case_1 :
    digestWords (hmac (List.replicate 20 0x0b) [0x48, 0x69, 0x20, 0x54, 0x68, 0x65, 0x72, 0x65]) =
      ⟨0xb6173186, 0x55057264, 0xe28bc0b6, 0xfb378c8e, 0xf146be00⟩ := by decide +kernel

theorem test_hmacSha1_empty : (nextOf (exec .hmacSha1 State.reset)).map
    (fun t => (t.results.digest, t.results.outLen)) =
    some (⟨0xfbdb1d1b, 0x18aa6c08, 0x324b7d64, 0xb71fb763, 0x70690e1d⟩, 20) := by decide +kernel

/-! ## B32_ENCODE and B32_DECODE (95 section 2.3) -/

theorem test_b32Encode_foobar :
    (nextOf (exec .b32Encode (withSrc (withBytes 0 [0x66, 0x6f, 0x6f, 0x62, 0x61, 0x72]) 0 6 0))).map
    (fun t => (memRead t.dmem 0 16, t.results.outLen)) =
    some ([0x4d, 0x5a, 0x58, 0x57, 0x36, 0x59, 0x54, 0x42, 0x4f, 0x49, 0x3d, 0x3d, 0x3d, 0x3d, 0x3d, 0x3d], 16) := by
  decide +kernel

theorem test_b32Encode_bounds :
    (nextOf (exec .b32Encode (withSrc State.reset 0 6 4080))).map (·.errCode) = some 0 ∧
    (nextOf (exec .b32Encode (withSrc State.reset 0 6 4081))).map (·.errCode) = some 4 := by decide +kernel

/-- "MZXW6YQ=" decodes to "foob". -/
theorem test_b32Decode_foob :
    (nextOf (exec .b32Decode (withSrc (withBytes 0 [0x4d, 0x5a, 0x58, 0x57, 0x36, 0x59, 0x51, 0x3d]) 0 8 0x40))).map
    (fun t => (memRead t.dmem 0x40 4, t.results.outLen, t.errCode)) = some ([0x66, 0x6f, 0x6f, 0x62], 4, 0) := by
  decide +kernel

/-- "MY=A====" fails with FORMAT before the output bounds; a bit of "MY======" is kept, those of "MZ======" discarded. -/
theorem test_b32Decode_corners :
    (nextOf (exec .b32Decode (withSrc (withBytes 0 [0x4d, 0x59, 0x3d, 0x41, 0x3d, 0x3d, 0x3d, 0x3d]) 0 8 4096))).map
      (·.errCode) = some 1 ∧
    b32Valid (0x4d :: 0x5a :: List.replicate 6 0x3d) = true ∧ b32Decode (0x4d :: 0x5a :: List.replicate 6 0x3d) = [0x66] ∧
    b32Valid (List.replicate 8 0x3d) = false := by decide +kernel

/-! ## HOTP_TRUNCATE and HOTP (95 section 2.4) -/

theorem test_hotpTruncate_top_bit : (nextOf (exec (.hotpTruncate 6)
      { withBytes 0 (List.replicate 20 0xff) with operands := { Operands.reset with dstAddr := 0x40 } })).map
    (fun t => (memRead t.dmem 0x40 6, t.results.truncOffset, t.results.truncP, t.results.code)) =
    some ([0x34, 0x38, 0x33, 0x36, 0x34, 0x37], 15, 0x7fffffff, 483647) := by decide +kernel

theorem test_hotpTruncate_range_before_bounds :
    (nextOf (exec (.hotpTruncate 0) (withSrc State.reset 5000 0 0))).map (·.errCode) = some 2 := by decide +kernel

theorem test_hotp_counter_1 : (nextOf (exec (.hotp 6)
      { withBytes 0x100 rfcKey with
        operands := ⟨0, 0, 0x100, 20, 0x200, 1, 0⟩ })).map
    (fun t => (memRead t.dmem 0x200 6, t.results.truncOffset, t.results.truncP, t.results.code, t.results.digest.h4)) =
    some ([0x32, 0x38, 0x37, 0x30, 0x38, 0x32], 11, 0x41397eea, 287082, 0x7a2d33ab) := by decide +kernel

theorem test_hotp_counter_2_pow_32 : (nextOf (exec (.hotp 6)
      { withBytes 0x100 rfcKey with
        operands := ⟨0, 0, 0x100, 20, 0x200, 0, 1⟩ })).map (·.results.code) = some 999456 := by decide +kernel

/-! ## Host transactions (95 section 2.6) and programs (section 3) -/

theorem test_host_reads :
    (hostStep (.read 0x008 .word) State.reset).response = some (.data 0x1000) ∧
    (hostStep (.read 0x000 .half) State.reset).response = some .busError ∧
    (hostStep (.read 0x002 .word) State.reset).response = some .busError ∧
    (hostStep (.read 0x018 .word) State.reset).response = some .busError ∧
    (hostStep (.read 0x11000 .byte) State.reset).response = some .busError := by decide

theorem test_host_byte_lanes :
    let s := hostStep (.write 0x10000 .word 0x11223344) State.reset
    (hostStep (.read 0x10000 .byte) s).response = some (.data 0x44) ∧
    (hostStep (.read 0x10002 .half) s).response = some (.data 0x1122) ∧
    (hostStep (.read 0x10001 .word) s).response = some .busError := by decide

/-- P5: the refused transactions set ACCESS_ERR and nothing else. -/
theorem test_busy_lock :
    let s := hostStep (.write 0x14 .word 1) State.reset
    (hostStep (.write 0x10000 .byte 0x78) s) = { s with accessErr := true, response := some .busError } ∧
    (hostStep (.write 0x14 .word 3) s).cmd = 1 ∧ statusWord (hostStep (.read 0x10000 .byte) s) = 5 := by decide

/-- P6: 0x101 completes with ILLEGAL_CMD, STATUS 0x52. -/
theorem test_illegal_word :
    (nextOf (step (State.reset.withFetchWord 32 0x101))).map statusWord = some 0x52 := by decide +kernel

/-- P2: irq rises at completion and falls at the acknowledge. -/
theorem test_irq : (nextOf (step { withCmd State.reset 0 with irqEn := true })).map
    (fun t => (irq t, irq (hostStep (.write 0x10 .word 2) t))) = some (true, false) := by decide +kernel

theorem test_soft_reset_keeps_dmem :
    (hostStep (.write 0x0C .word 3) { withBytes 0 [0x11] with irqEn := true, accessErr := true }) =
      { withBytes 0 [0x11] with response := some .ok } := by decide

theorem test_power_on_draws : (nextOf (step { State.reset with pending := [.powerOn [(5, 0xAA), (4096, 0xBB)]] })).map
    (fun t => (t.dmem.readByte 5, t.dmem.readByte 4096, t.dmem.readByte 6)) = some (0xAA, 0x00, 0x00) := by
  decide +kernel

theorem test_memory_canonical : (memWrite (memWrite Memory.empty 2 [0x01, 0x02]) 2 [0x00]).cells = [(3, 0x02)] := by
  decide

/-! ## Witnesses of the statements' hypotheses -/

theorem witness_DecodeOfEncodeIsTheCommand : (Instr.hotp 15).wellFormed = true := by decide

theorem witness_StepRunsTheDecodedCommand :
    (∃ s : State, s.busy = true ∧ decode s.cmd = .ok .sha1 ∧ s.pending = []) ∧
    (∃ s : State, s.busy = true ∧ decode s.cmd = .ok (.hotp 6) ∧ s.pending = .complete :: []) ∧
    decodeTableWord 32 0x606 = some (.hotpTruncate 6) :=
  ⟨⟨withCmd State.reset 1, rfl, rfl, rfl⟩, ⟨{ withCmd State.reset 0x607 with pending := [.complete] }, rfl, rfl, rfl⟩,
    by decide⟩

theorem witness_StepTakesTheFirstEvent :
    (∃ s : State, s.pending = .host (.read 0x10 .word) :: []) ∧
    (∃ s : State, s.busy = false ∧ s.pending = .complete :: []) ∧ ∃ s : State, s.busy = false ∧ s.pending = [] :=
  ⟨⟨{ State.reset with pending := [.host (.read 0x10 .word)] }, rfl⟩,
    ⟨{ State.reset with pending := [.complete] }, rfl, rfl⟩, ⟨State.reset, rfl, rfl⟩⟩

theorem witness_IllegalWordCompletes :
    (∃ s : State, s.busy = true ∧ decode s.cmd = .error .reservedOpcode ∧ s.pending = []) ∧
    ∃ s : State, s.busy = true ∧ decode s.cmd = .error .digitsNotZero ∧ s.pending = .complete :: [] :=
  ⟨⟨withCmd State.reset 0, rfl, rfl, rfl⟩, ⟨{ withCmd State.reset 0x101 with pending := [.complete] }, rfl, rfl, rfl⟩⟩

theorem witness_CmdWriteIsAccepted : State.reset.busy = false := rfl

/-- The empty region at the end of DMEM, and the last output that fits (95 section 2.5). -/
theorem witness_Sha1CommandResult : let s := withSrc State.reset 4096 0 4076
    s.fits s.operands.srcAddr s.operands.srcLen.toNat ∧ s.fits s.operands.dstAddr 20 := by decide

theorem witness_PrepareKeyCommandResult : let s := withKey (withSrc State.reset 0 0 4032) 4095 1
    s.fits s.operands.keyAddr s.operands.keyLen.toNat ∧ s.fits s.operands.dstAddr 64 := by decide

theorem witness_HmacSha1CommandResult : let s := withKey (withSrc State.reset 0 4096 4076) 4095 1
    s.fits s.operands.keyAddr s.operands.keyLen.toNat ∧ s.fits s.operands.srcAddr s.operands.srcLen.toNat ∧
      s.fits s.operands.dstAddr 20 := by decide

theorem witness_Base32EncodeCommandResult : let s := withSrc State.reset 0 6 4080
    s.fits s.operands.srcAddr s.operands.srcLen.toNat ∧
      s.fits s.operands.dstAddr (8 * ((s.operands.srcLen.toNat + 4) / 5)) := by decide

/-- "MY======", whose one output byte just fits (95 section 2.5). -/
def oneByteText (d : Word) : State := withSrc (withBytes 0 (0x4d :: 0x59 :: List.replicate 6 0x3d)) 0 8 d

theorem witness_Base32DecodeCommandResult : let s := oneByteText 4095
    s.fits s.operands.srcAddr s.operands.srcLen.toNat ∧ b32Valid s.srcBytes = true ∧
      s.fits s.operands.dstAddr (b32Decode s.srcBytes).length := by decide +kernel

theorem witness_HotpTruncateCommandResult : let s := withSrc State.reset 4076 0xFFFFFFFF 4086
    1 ≤ 10 ∧ 10 ≤ 10 ∧ s.fits s.operands.srcAddr 20 ∧ s.fits s.operands.dstAddr 10 := by decide

theorem witness_HotpCommandResult : let s := withKey (withSrc State.reset 0 0 4095) 0 0
    (1 ≤ 1 ∧ 1 ≤ 10 ∧ s.fits s.operands.keyAddr s.operands.keyLen.toNat ∧ s.fits s.operands.dstAddr 1) ∧
    ∃ hs : ByteSeq, hs = hmac s.keyBytes
      (be64bytes (BitVec.ofNat 64 (s.operands.counterHi.toNat * 2 ^ 32 + s.operands.counterLo.toNat))) :=
  ⟨by decide, _, rfl⟩

/-- One state for each clause, at the edge: no wrap, one byte past the end, the output one byte too high. -/
theorem witness_RegionOutOfBoundsFails :
    (¬ (withSrc State.reset 0xFFFFFFFF 1 0).fits 0xFFFFFFFF 1) ∧ (¬ (withSrc State.reset 0 0 4077).fits 4077 20) ∧
    (¬ (withKey State.reset 4096 1).fits 4096 1) ∧ (¬ State.reset.fits 4033 64) ∧ (¬ State.reset.fits 4095 2) ∧
    (¬ State.reset.fits 4081 (8 * ((6 + 4) / 5))) ∧
    (let s := oneByteText 4096
     b32Valid s.srcBytes = true ∧ ¬ s.fits s.operands.dstAddr (b32Decode s.srcBytes).length) ∧
    (¬ State.reset.fits 4077 20) ∧ ¬ State.reset.fits 4087 10 := by decide +kernel

theorem witness_DigitCountOutOfRangeFails : ((0 : Nat) = 0 ∨ 10 < 0) ∧ ((11 : Nat) = 0 ∨ 10 < 11) := by decide

theorem witness_InvalidBase32InputFails : let s := withSrc (withBytes 0 (List.replicate 8 0x3d)) 0 8 4097
    s.fits s.operands.srcAddr s.operands.srcLen.toNat ∧ b32Valid s.srcBytes = false := by decide +kernel

theorem witness_ErrorsArePrecise :
    ∃ s t : State, s.busy = true ∧ engineTurn s = .next t ∧ t.errCode ≠ 0 :=
  ⟨withCmd State.reset 0x6, (withCmd State.reset 0x6).failed 2, rfl, rfl, by decide⟩

theorem witness_CompletionRecordAndFrame : (withCmd State.reset 1).busy = true := rfl

theorem witness_CommandsLeaveOtherBytes :
    (∃ s t : State, exec .b32Encode s = .next t ∧ t.errCode = 0 ∧
      (4095 < s.operands.dstAddr.toNat ∨ s.operands.dstAddr.toNat + storedLength .b32Encode s ≤ 4095)) ∧
    (∃ s t : State, exec (.hotp 0) s = .next t ∧ t.errCode ≠ 0) ∧
    (State.reset.dmemSound = true ∧ 0 < ([0x11] : ByteSeq).length) ∧ 0 < 1 :=
  ⟨⟨State.reset, _, rfl, by decide +kernel, by decide +kernel⟩, ⟨State.reset, State.reset.failed 2, rfl, by decide⟩,
    by decide, by decide⟩

theorem witness_CommandsLeaveOtherResults :
    (∃ s t : State, exec .prepareKey s = .next t ∧ writesDigest .prepareKey = false
      ∧ writesTruncation .prepareKey = false) ∧
    ∃ s t : State, exec (.hotp 11) s = .next t ∧ t.errCode ≠ 0 :=
  ⟨⟨State.reset, _, rfl, rfl, rfl⟩, ⟨State.reset, State.reset.failed 2, rfl, by decide⟩⟩

theorem witness_Sha1DigestReadsBack : let s := withSrc State.reset 0 3 0x40
    s.dmemSound = true ∧ s.fits s.operands.srcAddr s.operands.srcLen.toNat ∧ s.fits s.operands.dstAddr 20 ∧
      s.operands.dstAddr.toNat % 4 = 0 := by decide

theorem witness_ExecReadsOnlyOperandsAndDmem :
    ∃ s s' : State, s'.cfg = s.cfg ∧ s'.operands = s.operands ∧ s'.dmem = s.dmem ∧ s' ≠ s ∧
      writesDigest (.hotp 6) = true ∧ writesTruncation (.hotp 6) = true :=
  ⟨State.reset, { State.reset with irqEn := true }, rfl, rfl, rfl, by decide, rfl, rfl⟩

theorem witness_UnlistedOperandsAreIgnored :
    ∃ r : Operands, agreeOn (.hotpTruncate 6) Operands.reset r ∧ r ≠ Operands.reset :=
  ⟨{ Operands.reset with srcLen := 7, keyAddr := 1, counterHi := 2 }, ⟨rfl, rfl⟩, by decide⟩

theorem witness_PaddingAppends :
    ([] : ByteSeq).length ≤ 65536 ∧ 55 ≤ 63 ∧ (([] : ByteSeq).length + 1 + 55) % 64 = 56 := by decide

theorem witness_PaddedMessageIsWholeBlocks :
    (List.replicate 55 (0 : Byte)).length ≤ 55 ∧ 56 ≤ (List.replicate 56 (0 : Byte)).length ∧
    (List.replicate 119 (0 : Byte)).length ≤ 119 ∧ 56 ≤ (List.replicate 63 (0 : Byte)).length % 64 := by decide

theorem witness_ScheduleRecurrence : (List.replicate 64 (0 : Byte)).length = 64 ∧ 15 < 16 ∧ 16 ≤ 16 ∧ 79 < 80 := by
  decide

theorem witness_RoundFunctionsAndConstants :
    19 ≤ 19 ∧ (20 ≤ 20 ∧ 39 ≤ 39) ∧ (40 ≤ 40 ∧ 59 ≤ 59) ∧ (60 ≤ 60 ∧ 79 ≤ 79) := by decide

theorem witness_PhasedPassComputesSha1 : passLength 55 - 1 < passLength 55 ∧ passLength 56 = 167 := by decide

theorem witness_PreparedKeyCases :
    64 < (List.replicate 65 (0 : Byte)).length ∧ (List.replicate 63 (0 : Byte)).length < 64 ∧
    (List.replicate 64 (0 : Byte)).length = 64 ∧ 63 < 64 := by decide

theorem witness_HmacOfLongKey : 65 ≤ (List.replicate 65 (0 : Byte)).length := by decide

theorem witness_Base32EncodedForm :
    ([] : ByteSeq).length = 5 * 0 ∧ ([1] : ByteSeq).length = 5 * 0 + 1 ∧ ([1, 2] : ByteSeq).length = 5 * 0 + 2 ∧
    ([1, 2, 3] : ByteSeq).length = 5 * 0 + 3 ∧ ([1, 2, 3, 4] : ByteSeq).length = 5 * 0 + 4 := by decide

/-- Quintet 1 of "f" is 24, the character Y. -/
theorem witness_Base32EncodeTakesQuintets : 2 = (8 * ([0x66] : ByteSeq).length + 4) / 5 ∧ 1 < 2 ∧
    24 = beValue [0x66] * 2 ^ (5 * 2 - 8 * ([0x66] : ByteSeq).length) / 32 ^ (2 - 1 - 1) % 32 := by decide

/-- The text MZ with its bits 0110011001 spells 409; dropped by two bits it is 0x66 (R117). -/
theorem test_text32Value : text32Value [0x4d, 0x5a] = 409 ∧ 409 / 2 ^ 2 = 0x66 ∧ text32Value [0x37, 0x32] = 1018 := by
  decide

/-- One valid text for each residue of the non-pad count (95 section 2.3). -/
theorem witness_Base32DecodedLength :
    (b32Valid (List.replicate 8 0x41) = true ∧ textCount (List.replicate 8 0x41) = 8 * 1) ∧
    (let s : ByteSeq := List.replicate 2 0x41 ++ List.replicate 6 0x3d; b32Valid s = true ∧ textCount s = 8 * 0 + 2) ∧
    (let s : ByteSeq := List.replicate 4 0x41 ++ List.replicate 4 0x3d; b32Valid s = true ∧ textCount s = 8 * 0 + 4) ∧
    (let s : ByteSeq := List.replicate 5 0x41 ++ List.replicate 3 0x3d; b32Valid s = true ∧ textCount s = 8 * 0 + 5) ∧
    (let s : ByteSeq := List.replicate 7 0x41 ++ List.replicate 1 0x3d; b32Valid s = true ∧ textCount s = 8 * 0 + 7) ∧
    0 < 5 * 2 / 8 :=
  by decide +kernel

theorem witness_TruncationAndCode : (List.replicate 20 (0xff : Byte)).length = 20 := by decide

theorem witness_RenderedCodeSpellsIt : 7081804 < 10 ^ 8 ∧ 0 < 10 ^ 0 := by decide

theorem witness_MalformedTransactions :
    (∀ r : Reg, r.offset ≠ 0x18) ∧ ((0x18 : Word).toNat < 0x10000) ∧
    (0x10000 ≤ (0x10001 : Word).toNat ∧ (0x10001 : Word).toNat < 0x10000 + State.reset.cfg.dmemBytes
      ∧ (0x10001 : Word).toNat % AccessSize.half.bytes ≠ 0) ∧
    0x10000 + State.reset.cfg.dmemBytes ≤ (0x11000 : Word).toNat ∧
    State.reset.inDmemWindow 0x10FFC .word := by
  refine ⟨fun r => ?_, by decide⟩
  cases r <;> decide

theorem witness_RegisterReadsAndWrites :
    State.reset.busy = false ∧
    Reg.counterHi ∈ [Reg.srcAddr, .srcLen, .keyAddr, .keyLen, .dstAddr, .counterLo, .counterHi] ∧
    Reg.counterLo ≠ Reg.counterHi ∧
    Reg.digest4 ∈ [Reg.id, .version, .config, .outLen, .truncOffset, .truncP, .code, .digest0, .digest1, .digest2,
      .digest3, .digest4] := by decide

theorem witness_StatusReadAndAcknowledge : (2 : Word)[1] = true ∧ State.reset.busy = false := by decide

theorem witness_ControlWriteAndSoftReset : (3 : Word)[1] = true ∧ (0xFFFFFFFD : Word)[1] = false := by decide

theorem witness_BusyLock : let s := withCmd State.reset 1
    s.busy = true ∧ s.inDmemWindow 0x10FFF .byte ∧ target s.cfg 0x11000 .byte = none ∧
    Reg.cmd ∈ [Reg.cmd, .srcAddr, .srcLen, .keyAddr, .keyLen, .dstAddr, .counterLo, .counterHi] ∧
    Reg.config ∈ [Reg.id, .version, .config, .outLen, .truncOffset, .truncP, .code, .digest0, .digest1, .digest2,
      .digest3, .digest4] := by decide

theorem witness_DmemByteLanes :
    State.reset.busy = false ∧ State.reset.dmemSound = true ∧ State.reset.inDmemWindow 0x10FFC .word := by decide

theorem witness_PowerOnResetDrawsDmem : ∃ s : State, s.pending = .powerOn [(0, 0x5A)] :: [] :=
  ⟨{ State.reset with pending := [.powerOn [(0, 0x5A)]] }, rfl⟩

theorem witness_InterruptLevel :
    (withCmd State.reset 1).busy = true ∧ (1 : Word)[1] = false ∧ (2 : Word)[1] = true ∧ State.reset.busy = false ∧
    (hostStep (.read 0x18 .word) State.reset).response = some .busError ∧
    (hostStep (.write 0x10000 .byte 0) (withCmd State.reset 1)).response = some .busError := by decide

theorem witness_EveryStepKeepsTheStateSound :
    ∃ s t : State, s.sound = true ∧ step s = .next t ∧ t ≠ s :=
  ⟨withCmd State.reset 0x8, (withCmd State.reset 0x8).failed 5, by decide, rfl, by decide⟩

/-- A completion with a code, an acceptance that clears one, a refused read, and a STATUS write that clears
ACCESS_ERR. -/
theorem witness_StatusFieldsChangeOnlySo :
    (∃ s t : State, s.statusSound = true ∧ step s = .next t ∧ t.errCode ≠ s.errCode) ∧
    (∃ s t : State, s.statusSound = true ∧ step s = .next t ∧ t.busy = true) ∧
    (∃ s t : State, s.statusSound = true ∧ step s = .next t ∧ t.accessErr = true ∧ s.accessErr = false) ∧
    ∃ s t : State, s.statusSound = true ∧ step s = .next t ∧ t.accessErr = false ∧ s.accessErr = true :=
  ⟨⟨withCmd State.reset 0x8, (withCmd State.reset 0x8).failed 5, rfl, rfl, by decide⟩,
    ⟨{ State.reset with pending := [.host (.write 0x14 .word 1)] }, _, rfl, rfl, rfl⟩,
    ⟨{ withCmd State.reset 1 with pending := [.host (.read 0x10000 .byte)] }, _, rfl, rfl, rfl, rfl⟩,
    ⟨{ State.reset with accessErr := true, pending := [.host (.write 0x10 .word 4)] }, _, rfl, rfl, rfl, rfl⟩⟩

theorem witness_ConstantsNeverChange :
    State.reset.cfg = Config.reference ∧ ∃ t, step State.reset = .next t := ⟨rfl, _, rfl⟩

theorem witness_ResultDoesNotDependOnInterleaving :
    ∃ (s : State) (ts : List Transaction), s.busy = true ∧ decode s.cmd = .ok .sha1 ∧ ts ≠ [] ∧
      ∀ t ∈ ts, t.resets = false :=
  ⟨withCmd State.reset 1, [.write 0x10000 .byte 0x78, .write 0x0C .word 1], rfl, rfl, by decide, by decide⟩

theorem witness_BusyCommandCompletes :
    ∃ (s : State) (ts : List Transaction), s.busy = true ∧ ts ≠ [] ∧ ∀ t ∈ ts, t.resets = false :=
  ⟨withCmd State.reset 0, [.read 0x10 .word], rfl, by decide, by decide⟩

theorem witness_SoftResetAbandonsTheCommand :
    ∃ (s : State) (v : Word), s.busy = true ∧ v[1] = true ∧
      s.pending = .host (.write 0x0C .word v) :: .complete :: [] :=
  ⟨{ withCmd State.reset 1 with pending := [.host (.write 0x0C .word 2), .complete] }, 2, rfl, by decide, rfl⟩

end Sys2Proof.Tests
end

section
/-! PROOFS. The statements of 10_state.md: what each agent's step can leave behind, the registers at the host port, the
digest in DMEM, and from these the obligations, each settled at the end. -/

namespace Sys2Proof.Machine

/-! ### What a step does, by the agent that takes it -/

/-- Everything a transaction can leave behind, for the proofs of what every step keeps (R40 to R47). -/
inductive HostEffect (x : Transaction) (s : State) : State → Prop
  | answered (r : Response) : HostEffect x s (respond r s)
  | refused (hbusy : s.busy = true) : HostEffect x s (refuse s)
  | operandsWritten (ops : Operands) : HostEffect x s (respond .ok { s with operands := ops })
  | softReset : HostEffect x s (respond .ok (resetRegisters s))
  | irqEnWritten (b : Bool) : HostEffect x s (respond .ok { s with irqEn := b })
  | statusWritten (v : Word) (hx : x = .write 0x10 .word v) : HostEffect x s (respond .ok (writeStatus v s))
  | accepted (v : Word) (hidle : s.busy = false) : HostEffect x s (respond .ok (accept v s))
  | dmemWritten (o : Nat) (bs : ByteSeq) (hfit : o + bs.length ≤ s.cfg.dmemBytes) :
      HostEffect x s (respond .ok { s with dmem := memWrite s.dmem o bs })

theorem hostRead_effect (a : Word) (n : AccessSize) (s : State) : HostEffect (.read a n) s (hostRead a n s) := by
  rcases hostRead_cases a n s with h | ⟨v, h⟩ | ⟨hb, h⟩ <;> rw [h]
  · exact .answered _
  · exact .answered _
  · exact .refused hb

/-- A register write that the busy lock lets through (R46). -/
theorem writeReg_effect {r : Reg} (v : Word) {s : State} (hlock : s.busy = true → writeLocked r = false) :
    HostEffect (.write (regAddress r) .word v) s (respond .ok (writeReg r v s)) := by
  rcases writeReg_cases r v s with h | ⟨ops, h⟩ | ⟨-, -, h⟩ | ⟨-, -, h⟩ | ⟨rfl, h⟩ | ⟨rfl, h⟩ <;> rw [h]
  · exact .answered _
  · exact .operandsWritten ops
  · exact .softReset
  · exact .irqEnWritten _
  · exact .statusWritten v rfl
  · exact .accepted v (by simpa [writeLocked] using hlock)

theorem hostWrite_effect (a : Word) (n : AccessSize) (v : Word) (s : State) :
    HostEffect (.write a n v) s (hostWrite a n v s) := by
  rcases hostWrite_cases a n v s with h | ⟨hb, h⟩ | ⟨r, rfl, rfl, hlock, h⟩ | ⟨-, hw, h⟩ <;> rw [h]
  · exact .answered _
  · exact .refused hb
  · exact writeReg_effect v hlock
  · exact .dmemWritten _ _ (by simpa using inDmemWindow_fits hw)

theorem hostStep_effect (x : Transaction) (s : State) : HostEffect x s (hostStep x s) := by
  cases x with
  | read a n => exact hostRead_effect a n s
  | write a n v => exact hostWrite_effect a n v s

/-- A step with a next state is the engine's turn, a transaction or a power-on reset, with its event taken. -/
theorem step_next_cases {s t : State} (h : step s = .next t) :
    engineTurn { s with pending := s.pending.tail } = .next t ∨
    (∃ x rest, s.pending = .host x :: rest ∧ HostEffect x { s with pending := rest } t) ∨
    ∃ draw, t = powerOnReset draw { s with pending := s.pending.tail } := by
  rcases step_cases s with ⟨hp, he⟩ | ⟨x, rest, hp, he⟩ | ⟨rest, hp, he⟩ | ⟨draw, rest, hp, he⟩ <;> rw [he] at h
  · have hs : { s with pending := s.pending.tail } = s := by rw [hp, List.tail_nil, ← hp]
    rw [hs]
    exact .inl h
  · cases h
    exact .inr (.inl ⟨x, rest, hp, hostStep_effect x _⟩)
  · exact .inl (by rw [hp]; exact h)
  · cases h
    exact .inr (.inr ⟨draw, by rw [hp]; rfl⟩)

/-- The engine's turn passes while BUSY = 0, and while BUSY = 1 it completes (R77, R139). -/
theorem engineTurn_next_cases {s t : State} (h : engineTurn s = .next t) :
    (s.busy = false ∧ t = s) ∨
    (s.busy = true ∧ t.busy = false ∧ t.done = true ∧ t.accessErr = s.accessErr ∧ t.cfg = s.cfg ∧
      t.pending = s.pending) := by
  rcases engineTurn_cases s with ⟨hb, he⟩ | ⟨hb, e, -, he⟩ | ⟨hb, i, out, w, -, -, -, -, he⟩ <;>
    rw [he] at h <;> cases h
  · exact .inl ⟨hb, rfl⟩
  · exact .inr ⟨hb, rfl, rfl, rfl, rfl, rfl⟩
  · exact .inr ⟨hb, rfl, rfl, rfl, rfl, rfl⟩

/-! ### The invariant -/

/-- A result register keeps its range when a command writes it, and when it does not (R30, R78). -/
theorem apply_truncation_ranges {i : Instr} {w : ResultWrites} (hw : w.ofCommand i) (n : Nat) {r : Results}
    (ho : r.truncOffset.toNat ≤ 15) (hp : r.truncP.toNat < 2 ^ 31) (hc : r.code.toNat ≤ r.truncP.toNat) :
    (r.apply n w).truncOffset.toNat ≤ 15 ∧ (r.apply n w).truncP.toNat < 2 ^ 31 ∧
      (r.apply n w).code.toNat ≤ (r.apply n w).truncP.toNat := by
  obtain ⟨-, ⟨-, h1, h2, h3⟩ | ⟨-, hs, digits, h1, h2, h3⟩⟩ := hw <;>
    simp only [Results.apply, h1, h2, h3, Option.getD_none, Option.getD_some, BitVec.toNat_ofNat]
  · exact ⟨ho, hp, hc⟩
  · have := truncationOffset_lt hs
    have := truncatedValue_lt hs
    have := codeValue_le hs digits
    omega

theorem failed_sound {s : State} {e : ErrorKind} (h : s.sound = true) (he : e.fromExec ∨ e = .illegalCmd) :
    (s.failed e.toCode).sound = true := by
  rw [sound_iff] at h ⊢
  obtain ⟨hmem, -, -, hres⟩ := h
  refine ⟨hmem, nofun, ?_, hres⟩
  rcases he with (rfl | rfl | rfl) | rfl <;> simp [State.failed, ErrorKind.toCode]

theorem completed_sound {s : State} {i : Instr} {out : ByteSeq} {w : ResultWrites} (h : s.sound = true)
    (hfit : s.operands.dstAddr.toNat + out.length ≤ s.cfg.dmemBytes) (hw : w.ofCommand i) :
    (s.completed out (s.results.apply out.length w)).sound = true := by
  rw [sound_iff] at h ⊢
  obtain ⟨⟨hwf, hin⟩, -, -, ho, hp, hc, -⟩ := h
  obtain ⟨ho', hp', hc'⟩ := apply_truncation_ranges hw out.length ho hp hc
  have hlen : (BitVec.ofNat 32 out.length).toNat ≤ s.cfg.dmemBytes := by
    rw [BitVec.toNat_ofNat]
    exact (Nat.mod_le _ _).trans ((Nat.le_add_left _ _).trans hfit)
  exact ⟨⟨memWrite_wf _ out hwf, memWrite_within hin hfit⟩, nofun, .inl rfl, ho', hp', hc', hlen⟩

theorem engineTurn_sound {s t : State} (h : s.sound = true) (ht : engineTurn s = .next t) : t.sound = true := by
  rcases engineTurn_cases s with ⟨-, he⟩ | ⟨-, e, hk, he⟩ | ⟨-, i, out, w, -, -, hfit, hw, he⟩ <;>
    rw [he] at ht <;> cases ht
  · exact h
  · exact failed_sound h hk
  · exact completed_sound h hfit hw

/-- A reset leaves a sound state whatever stood before, if DMEM is sound (R36). -/
theorem resetRegisters_sound {s : State} (h : s.dmemSound = true) : (resetRegisters s).sound = true := by
  rw [sound_iff]
  exact ⟨Bool.and_eq_true_iff.mp h, nofun, .inl rfl, by simp [Results.reset]⟩

theorem powerOnReset_sound (draw : List Host.Cell) (s : State) : (powerOnReset draw s).sound = true :=
  resetRegisters_sound (s := { s with dmem := drawnMemory s.cfg.dmemBytes draw })
    (Bool.and_eq_true_iff.mpr ⟨drawnMemory_wf _ draw, drawnMemory_within _ draw⟩)

theorem hostEffect_sound {x : Transaction} {s t : State} (h : s.sound = true) (ht : HostEffect x s t) :
    t.sound = true := by
  have hs := h
  rw [sound_iff] at hs
  obtain ⟨⟨hwf, hin⟩, hstatus, hcode, hres⟩ := hs
  cases ht with
  | answered | refused | operandsWritten | irqEnWritten => exact h
  | softReset => exact resetRegisters_sound (Bool.and_eq_true_iff.mpr ⟨hwf, hin⟩)
  | statusWritten v =>
    rw [sound_iff]
    exact ⟨⟨hwf, hin⟩, fun hb => by simp [hstatus hb], hcode, hres⟩
  | accepted v =>
    rw [sound_iff]
    exact ⟨⟨hwf, hin⟩, fun _ => ⟨rfl, rfl⟩, .inl rfl, hres⟩
  | dmemWritten o bs hfit =>
    rw [sound_iff]
    exact ⟨⟨memWrite_wf o bs hwf, memWrite_within hin hfit⟩, hstatus, hcode, hres⟩

/-! ### The STATUS fields -/

theorem hostEffect_statusSound {x : Transaction} {s t : State} (h : s.busy = true → s.done = false ∧ s.errCode = 0)
    (ht : HostEffect x s t) (hb : t.busy = true) : t.done = false ∧ t.errCode = 0 := by
  cases ht with
  | answered | refused | operandsWritten | irqEnWritten | dmemWritten => exact h hb
  | softReset => cases hb
  | statusWritten v =>
    obtain ⟨hdone, hcode⟩ := h hb
    exact ⟨by simp [hdone], hcode⟩
  | accepted => exact ⟨rfl, rfl⟩

/-- A transaction changes ERR_CODE only by an acceptance or a soft reset, to 0 (R26). -/
theorem hostEffect_errCode {x : Transaction} {s t : State} (ht : HostEffect x s t) :
    t.errCode = s.errCode ∨ (s.busy = false ∧ t.busy = true ∧ t.errCode = 0) ∨
      t = respond .ok (resetRegisters s) := by
  cases ht with
  | answered | refused | operandsWritten | irqEnWritten | statusWritten | dmemWritten => exact .inl rfl
  | softReset => exact .inr (.inr rfl)
  | accepted v hidle => exact .inr (.inl ⟨hidle, rfl, rfl⟩)

/-- A transaction changes ACCESS_ERR only by a refusal, a STATUS write with bit 2 or a soft reset (R26). -/
theorem hostEffect_accessErr {x : Transaction} {s t : State} (ht : HostEffect x s t) :
    t.accessErr = s.accessErr ∨ (s.busy = true ∧ t.accessErr = true ∧ t.response = some .busError) ∨
      (∃ v, x = .write 0x10 .word v ∧ v[2] = true ∧ t.accessErr = false) ∨ t = respond .ok (resetRegisters s) := by
  cases ht with
  | answered | operandsWritten | irqEnWritten | accepted | dmemWritten => exact .inl rfl
  | refused hbusy => exact .inr (.inl ⟨hbusy, rfl, rfl⟩)
  | softReset => exact .inr (.inr (.inr rfl))
  | statusWritten v hx =>
    cases hv : v[2] with
    | true => exact .inr (.inr (.inl ⟨v, hx, hv, by simp [hv]⟩))
    | false => exact .inl (by simp [hv])

theorem statusSound_iff (s : State) :
    s.statusSound = true ↔ (s.busy = true → s.done = false ∧ s.errCode = 0) := by
  cases hb : s.busy <;> simp [State.statusSound, hb]

/-! ### The constants -/

theorem step_cfg {s t : State} (h : step s = .next t) : t.cfg = s.cfg := by
  rcases step_next_cases h with he | ⟨x, rest, -, hx⟩ | ⟨draw, rfl⟩
  · rcases engineTurn_next_cases he with ⟨-, rfl⟩ | ⟨-, -, -, -, hcfg, -⟩
    · rfl
    · exact hcfg
  · cases hx <;> rfl
  · rfl

/-- DMEM_BYTES fits the CONFIG register (R23). -/
theorem readReg_config_toNat (s : State) : (readReg .config s).toNat = s.cfg.dmemBytes := by
  have := dmemBytes_le s.cfg
  rw [readReg, BitVec.toNat_ofNat, Nat.mod_eq_of_lt (by omega)]

/-! ### The registers at the host port -/

theorem hostStep_read_reg (r : Reg) (s : State) :
    hostStep (.read (regAddress r) .word) s = respond (.data (readReg r s)) s := by
  simp [hostStep, hostRead]

theorem hostStep_write_reg (r : Reg) (v : Word) (s : State) (hlock : (s.busy && writeLocked r) = false) :
    hostStep (.write (regAddress r) .word v) s = respond .ok (writeReg r v s) := by
  simp [hostStep, hostWrite, hlock]

/-- The operand registers (R28). -/
def operandRegs : List Reg := [.srcAddr, .srcLen, .keyAddr, .keyLen, .dstAddr, .counterLo, .counterHi]

/-- The read-only registers (R22). -/
def readOnlyRegs : List Reg :=
  [.id, .version, .config, .outLen, .truncOffset, .truncP, .code, .digest0, .digest1, .digest2, .digest3, .digest4]

theorem writeReg_operand_eq {r : Reg} (hr : r ∈ operandRegs) (v : Word) (s : State) :
    ∃ ops, writeReg r v s = { s with operands := ops } := by
  fin_cases hr <;> exact ⟨_, rfl⟩

theorem readReg_writeReg_operand {r : Reg} (hr : r ∈ operandRegs) (r' : Reg) (v : Word) (s : State) :
    readReg r' (writeReg r v s) = if r' = r then v else readReg r' s := by
  fin_cases hr <;> cases r' <;> rfl

theorem writeReg_readOnly {r : Reg} (hr : r ∈ readOnlyRegs) (v : Word) (s : State) : writeReg r v s = s := by
  fin_cases hr <;> rfl

theorem writeLocked_readOnly {r : Reg} (hr : r ∈ readOnlyRegs) : writeLocked r = false := by
  fin_cases hr <;> rfl

theorem ctrlWord_eq (s : State) : ctrlWord s = if s.irqEn then 1 else 0 := by
  cases hi : s.irqEn <;> simp [ctrlWord, hi]

/-! ### The digest of SHA1 -/

/-- SHA1 with both regions in bounds (R77, R78, R100). -/
theorem exec_sha1_of_fits {s : State} (hsrc : s.fits s.operands.srcAddr s.operands.srcLen.toNat)
    (hdst : s.fits s.operands.dstAddr 20) :
    exec .sha1 s = .next (s.completed (sha1 s.srcBytes)
      { s.results with outLen := 20, digest := digestWords (sha1 s.srcBytes) }) := by
  have hall : [srcRegion s.operands, dstRegion s.operands 20].all (·.inBounds s.cfg) = true := by
    simp only [List.all_cons, List.all_nil, Bool.and_eq_true, inBounds_iff]
    exact ⟨hsrc, hdst, trivial⟩
  simp only [exec_eq_finish, evalCommand, evalSha1, checkRegions_eq, hall, if_true]
  simp [finish, storeOutputs, recordCompletion, State.completed, Results.apply, State.srcBytes, readRegion, srcRegion]

theorem beValue_foldl (l : ByteSeq) (v : Nat) :
    l.foldl (fun v b => 256 * v + b.toNat) v = v * 256 ^ l.length + beValue l := by
  induction l generalizing v with
  | nil => simp [beValue]
  | cons b l ih =>
    simp only [beValue, List.foldl_cons, List.length_cons, pow_succ, ih (256 * v + b.toNat), ih (256 * 0 + b.toNat)]
    ring

theorem beValue_append (a b : ByteSeq) : beValue (a ++ b) = beValue a * 256 ^ b.length + beValue b := by
  rw [beValue, List.foldl_append, beValue_foldl b]; rfl

theorem beValue_be32bytes (w : Word) : beValue (be32bytes w) = w.toNat := by
  have := w.isLt
  simp only [beValue, be32bytes, List.foldl_cons, List.foldl_nil, byteOf_toNat]
  omega

/-- A digest spells its words side by side, the first most significant (R98). -/
theorem beValue_digestBytes (h : HashWords) : beValue (digestBytes h) =
    h.h0.toNat * 2 ^ 128 + h.h1.toNat * 2 ^ 96 + h.h2.toNat * 2 ^ 64 + h.h3.toNat * 2 ^ 32 + h.h4.toNat := by
  simp only [digestBytes, beValue_append, beValue_be32bytes, be32bytes_length]
  ring

theorem memRead_memWrite_take {m : Memory} (a n : Nat) (bs : ByteSeq) (hm : m.wf) (hn : n ≤ bs.length) :
    memRead (memWrite m a bs) a n = bs.take n := by
  apply List.ext_getElem
  · simp [hn]
  · intro i hi _
    rw [memRead_length] at hi
    rw [memRead_getElem, readByte_memWrite_inside a i bs hm (by omega), List.getElem_take]

/-- A little-endian word read of four bytes is their big-endian word in reversed order (R44, R51). -/
theorem leValue_eq_be32_reverse {l : ByteSeq} (hl : l.length = 4) : BitVec.ofNat 32 (leValue l) = be32 l.reverse := by
  match l, hl with
  | [b0, b1, b2, b3], _ =>
    simp only [leValue, be32, byteAt, List.reverse_cons, List.reverse_nil, List.nil_append, List.cons_append,
      List.getD_cons_zero, List.getD_cons_succ]
    congr 1
    ring

theorem dmemAddress_toNat {c : Config} {o : Nat} (ho : o < c.dmemBytes) :
    (dmemAddress o).toNat = 0x10000 + o := by
  have := dmemBytes_le c
  rw [dmemAddress, dmemBase, BitVec.toNat_ofNat, Nat.mod_eq_of_lt (by omega)]

/-- An aligned read of DMEM while BUSY = 0 returns its bytes by the byte lanes (R44). -/
theorem hostStep_read_dmem {s : State} {o : Nat} {n : AccessSize} (hbusy : s.busy = false)
    (ho : o < s.cfg.dmemBytes) (halign : o % n.bytes = 0) :
    hostStep (.read (dmemAddress o) n) s
      = respond (.data (BitVec.ofNat 32 (leValue (memRead s.dmem o n.bytes)))) s := by
  have ha := dmemAddress_toNat ho
  have hmod : (dmemAddress o).toNat % n.bytes = 0 := by
    rw [ha]
    cases n <;> simp only [AccessSize.bytes] at halign ⊢ <;> omega
  have htarget : target s.cfg (dmemAddress o) n = some (.dmem o) := by
    rw [target_dmem ⟨by omega, by omega, hmod⟩, ha, Nat.add_sub_cancel_left]
  simp [hostStep, hostRead, htarget, hbusy]

end Sys2Proof.Machine

namespace Sys2Proof.Proofs

open Sys2Proof.Machine

/-- Settles O47: the map and the reset state are closed data. -/
theorem registerMapAtReset : Obligations.RegisterMapAtReset := by
  refine ⟨?_, ?_, ?_⟩ <;> decide

/-- Settles O50: CTRL is not locked, so the write is `writeCtrl`, one branch for each value of bit 1. -/
theorem controlWriteAndSoftReset : Obligations.ControlWriteAndSoftReset := by
  intro s v
  have hw : hostStep (.write 0x0C .word v) s = respond .ok (writeCtrl v s) :=
    hostStep_write_reg .ctrl v s (by simp [writeLocked])
  rw [hw, writeCtrl]
  refine ⟨ctrlWord_eq s, fun hv => ?_, fun hv => ?_⟩
  · rw [if_pos hv]
    exact ⟨rfl, rfl, rfl⟩
  · rw [if_neg (by simp [hv])]
    rfl

/-- Settles O25: the stored bytes read back, their number is the words', and a word read reverses them. -/
theorem sha1DigestReadsBack : Obligations.Sha1DigestReadsBack := by
  intro s hmem hsrc hdst
  have hwf : s.dmem.wf = true := (Bool.and_eq_true_iff.mp hmem).1
  have hlen : (sha1 s.srcBytes).length = 20 := sha1_length _
  refine ⟨_, exec_sha1_of_fits hsrc hdst, fun i hi => ?_, ?_, rfl, fun halign => ?_⟩
  · have hi' : i < (sha1 s.srcBytes).length := by omega
    rw [byteAt, List.getD_eq_getElem _ _ hi']
    exact readByte_memWrite_inside _ i _ hwf hi'
  · simp only [State.completed, sha1, digestWords_digestBytes]
    exact beValue_digestBytes _
  · refine (hostStep_read_dmem (n := .word) rfl (by simp only [State.completed]; omega) halign).trans ?_
    have hword : memRead (memWrite s.dmem s.operands.dstAddr.toNat (sha1 s.srcBytes)) s.operands.dstAddr.toNat 4
        = (sha1 s.srcBytes).take 4 := memRead_memWrite_take _ 4 _ hwf (by omega)
    simp only [State.completed, AccessSize.bytes, hword, respond]
    rw [leValue_eq_be32_reverse (by simp)]

/-- Settles O48, from what a register's transaction does and what its write leaves. -/
theorem registerReadsAndWrites : Obligations.RegisterReadsAndWrites := by
  refine ⟨fun s => ?_, fun s r => hostStep_read_reg r s, fun s r v hb hr => ?_, fun s r v hr => ?_⟩
  · rw [← ctrlWord_eq]; rfl
  · obtain ⟨ops, hw⟩ := writeReg_operand_eq hr v s
    have hread := fun r' => readReg_writeReg_operand hr r' v s
    rw [hw] at hread
    refine ⟨ops, ?_, (hread r).trans (if_pos rfl), fun r' hne => (hread r').trans (if_neg hne)⟩
    exact (hostStep_write_reg r v s (by simp [hb])).trans (congrArg (respond .ok) hw)
  · have hw := hostStep_write_reg r v s (by simp [writeLocked_readOnly hr])
    rw [writeReg_readOnly hr] at hw
    exact hw

/-- Settles O56, by what each agent's step does to the STATUS fields. -/
theorem statusFieldsChangeOnlySo : Obligations.StatusFieldsChangeOnlySo := by
  intro s t h ht
  rw [statusSound_iff] at h
  rcases step_next_cases ht with he | ⟨x, rest, hp, hx⟩ | ⟨draw, rfl⟩
  · rcases engineTurn_next_cases he with ⟨hb, rfl⟩ | ⟨hb, htb, htd, hacc, -, hpend⟩
    · exact ⟨h, fun hne => absurd rfl hne, fun h1 h0 => (nomatch h1.symm.trans h0),
        fun h0 h1 => (nomatch h1.symm.trans h0)⟩
    · change t.accessErr = s.accessErr at hacc
      rw [hacc, htb]
      exact ⟨nofun, fun _ => .inl ⟨hb, rfl, htd, hpend ▸ he⟩, fun h1 h0 => (nomatch h1.symm.trans h0),
        fun h0 h1 => (nomatch h1.symm.trans h0)⟩
  · refine ⟨hostEffect_statusSound (s := { s with pending := rest }) h hx, fun hne => ?_, fun h1 h0 => ?_,
      fun h0 h1 => ?_⟩
    · rcases hostEffect_errCode hx with he | hacc | rfl
      · exact absurd he hne
      · exact .inr (.inl hacc)
      · exact .inr (.inr ⟨rfl, rfl⟩)
    · rcases hostEffect_accessErr hx with he | ⟨hb, -, hr⟩ | ⟨v, -, -, he⟩ | rfl
      · exact nomatch h1.symm.trans (he.trans h0)
      · exact ⟨hb, hr, x, rest, hp⟩
      · exact nomatch h1.symm.trans he
      · cases h1
    · rcases hostEffect_accessErr hx with he | ⟨-, he, -⟩ | ⟨v, rfl, hv, -⟩ | rfl
      · exact nomatch h1.symm.trans (he.symm.trans h0)
      · exact nomatch h0.symm.trans he
      · exact .inl ⟨v, rest, hp, hv⟩
      · exact .inr rfl
  · exact ⟨nofun, fun _ => .inr (.inr ⟨rfl, rfl⟩), nofun, fun _ _ => .inr rfl⟩

/-- Settles O57: ID and VERSION read literals, CONFIG reads the size, and no step changes the parameters. -/
theorem constantsNeverChange : Obligations.ConstantsNeverChange := by
  refine fun s t => ⟨rfl, rfl, readReg_config_toNat s, fun hc => ?_, fun h => ?_⟩
  · simp only [readReg, hc]
    decide
  · have hcfg := step_cfg h
    exact ⟨hcfg, rfl, rfl, by simp only [readReg, hcfg]⟩

/-- Settles O55: each agent's step keeps the invariant, the engine's by the ranges of what a command writes. -/
theorem everyStepKeepsTheStateSound : Obligations.EveryStepKeepsTheStateSound := by
  intro s t h ht
  have hs : ∀ p, State.sound { s with pending := p } = true := fun _ => h
  rcases step_next_cases ht with he | ⟨x, rest, -, hx⟩ | ⟨draw, rfl⟩
  · exact engineTurn_sound (hs _) he
  · exact hostEffect_sound (hs _) hx
  · exact powerOnReset_sound draw _

end Sys2Proof.Proofs

end

section
/-! PROOFS. The statements of 20_memory.md: regions out of bounds, malformed and refused transactions, the byte lanes of
DMEM, and from these the obligations, each settled at the end. -/

namespace Sys2Proof.Machine

/-! ### A region out of bounds -/

/-- One region out of bounds fails the whole check, in unbounded arithmetic (R48, R75). -/
theorem checkRegions_of_out {c : Config} {rs : List Region} (h : ∃ r ∈ rs, c.dmemBytes < r.addr + r.len)
    (k : ExecResult) : checkRegions c rs k = .err .bounds := by
  obtain ⟨r, hr, hout⟩ := h
  have hall : rs.all (·.inBounds c) ≠ true := fun hall => by
    have := (inBounds_iff c r).mp (List.all_eq_true.mp hall r hr)
    omega
  rw [checkRegions_eq, if_neg hall]

theorem checkDigits_of_inRange {digits : Nat} (h1 : 1 ≤ digits) (h10 : digits ≤ 10) (k : ExecResult) :
    checkDigits digits k = k := by
  rw [checkDigits_eq, if_pos ⟨h1, h10⟩]

/-- A command whose `Exec` is an error only records its code (R76, R77). -/
theorem exec_of_evalCommand_err {i : Instr} {s : State} {e : ErrorKind}
    (h : evalCommand i s.cfg s.operands s.dmem = .err e) : exec i s = .next (s.failed e.toCode) := by
  rw [exec_eq_finish, h]; rfl

/-- B32_DECODE looks at its output region only after the text is found valid (R74). -/
theorem evalB32Decode_of_out {s : State} (h : ¬ s.fits s.operands.srcAddr s.operands.srcLen.toNat ∨
    (b32Valid s.srcBytes = true ∧ ¬ s.fits s.operands.dstAddr (b32Decode s.srcBytes).length)) :
    evalB32Decode s.cfg s.operands s.dmem = .err .bounds := by
  by_cases hsrc : s.fits s.operands.srcAddr s.operands.srcLen.toNat
  · obtain ⟨hvalid, hdst⟩ := h.resolve_left (not_not_intro hsrc)
    have hin : [srcRegion s.operands].all (·.inBounds s.cfg) = true := by simpa [srcRegion] using hsrc
    have hout := checkRegions_of_out (c := s.cfg) (rs := [dstRegion s.operands (b32Decode s.srcBytes).length])
      (by simpa [dstRegion] using hdst)
    rw [evalB32Decode, checkRegions_eq, if_pos hin]
    exact (if_pos hvalid).trans (hout _)
  · exact checkRegions_of_out (by simpa [srcRegion] using hsrc) _

/-! ### A malformed transaction -/

/-- What R41 and R43 call malformed has no target. -/
theorem target_of_malformed {s : State} {a : Word} {n : AccessSize}
    (h : (a.toNat < 0x10000 ∧ (n ≠ .word ∨ a.toNat % 4 ≠ 0 ∨ ∀ r : Reg, r.offset ≠ a.toNat)) ∨
      (0x10000 ≤ a.toNat ∧ a.toNat < 0x10000 + s.cfg.dmemBytes ∧ a.toNat % n.bytes ≠ 0) ∨
      0x10000 + s.cfg.dmemBytes ≤ a.toNat) : target s.cfg a n = none := by
  rcases target_cases s a n with ht | ⟨r, -, rfl, rfl⟩ | ⟨⟨hlow, hhigh, halign⟩, -⟩
  · exact ht
  · exfalso
    have hlt := offset_lt r
    rw [regAddress_toNat] at h
    rcases h with ⟨-, hn | hmod | hoff⟩ | ⟨hlow, -⟩ | hhigh
    · exact hn rfl
    · exact hmod (offset_aligned r)
    · exact hoff r rfl
    · omega
    · omega
  · exfalso
    rcases h with ⟨hlt, -⟩ | ⟨-, -, hmod⟩ | hge
    · omega
    · exact hmod halign
    · omega

/-- A transaction without a target only gets BusError, BUSY or not (R41, R43). -/
theorem hostStep_of_target_none {s : State} {a : Word} {n : AccessSize} (h : target s.cfg a n = none) (v : Word) :
    hostStep (.read a n) s = respond .busError s ∧ hostStep (.write a n v) s = respond .busError s := by
  simp only [hostStep, hostRead, hostWrite, h, and_self]

/-! ### The busy lock -/

/-- DMEM is closed to the host while BUSY = 1 (R46). -/
theorem hostStep_dmem_busy {s : State} {a : Word} {n : AccessSize} (hbusy : s.busy = true) (h : s.inDmemWindow a n)
    (v : Word) : hostStep (.read a n) s = refuse s ∧ hostStep (.write a n v) s = refuse s := by
  simp only [hostStep, hostRead, hostWrite, target_dmem h, hbusy, if_true, and_self]

/-- The write-locked registers are CMD and the operand registers (R46). -/
theorem writeLocked_iff (r : Reg) : writeLocked r = true ↔ r ∈ .cmd :: operandRegs := by
  cases r <;> decide

theorem hostStep_write_locked {s : State} {r : Reg} (hbusy : s.busy = true) (hr : writeLocked r = true) (v : Word) :
    hostStep (.write (regAddress r) .word v) s = refuse s := by
  simp [hostStep, hostWrite, hbusy, hr]

/-! ### The byte lanes -/

/-- Byte i of a region weighs 2^(8i) (R44). -/
theorem leValue_memRead (m : Memory) (o n : Nat) : leValue (memRead m o n) =
    ((List.range n).map fun i => (m.readByte (o + i)).toNat * 2 ^ (8 * i)).sum := by
  induction n generalizing o with
  | zero => rfl
  | succ n ih =>
    have hshift : ∀ i, (m.readByte (o + (i + 1))).toNat * 2 ^ (8 * (i + 1))
        = 256 * ((m.readByte (o + 1 + i)).toNat * 2 ^ (8 * i)) := fun i => by
      rw [show o + (i + 1) = o + 1 + i by omega, show 8 * (i + 1) = 8 + 8 * i by omega, pow_add]
      ring
    rw [memRead, leValue, ih, List.range_succ_eq_map, List.map_cons, List.sum_cons, List.map_map]
    simp only [Function.comp_def, Nat.succ_eq_add_one, hshift, List.sum_map_mul_left]
    simp

theorem leValue_lt (l : ByteSeq) : leValue l < 256 ^ l.length := by
  induction l with
  | nil => decide
  | cons b l ih =>
    have := b.isLt
    rw [leValue, List.length_cons, pow_succ]
    omega

/-- Every transaction's bytes fit a word (R40). -/
theorem leValue_memRead_lt (m : Memory) (o : Nat) (n : AccessSize) : leValue (memRead m o n.bytes) < 2 ^ 32 := by
  have hlt := leValue_lt (memRead m o n.bytes)
  rw [memRead_length] at hlt
  cases n <;> simp only [AccessSize.bytes] at hlt ⊢ <;> omega

theorem byteOf_eq_extractLsb' (v : Word) (i : Nat) : byteOf v.toNat i = v.extractLsb' (8 * i) 8 := by
  apply BitVec.eq_of_toNat_eq
  rw [byteOf_toNat, BitVec.extractLsb'_toNat, Nat.shiftRight_eq_div_pow]

theorem leBytes_getElem (n : Nat) (v : Word) (i : Nat) (h : i < (leBytes n v).length) :
    (leBytes n v)[i] = v.extractLsb' (8 * i) 8 := by
  simp [leBytes, byteOf_eq_extractLsb']

/-- An aligned read in the DMEM window while BUSY = 0 (R44). -/
theorem hostStep_read_window {s : State} {a : Word} {n : AccessSize} (hbusy : s.busy = false)
    (h : s.inDmemWindow a n) : hostStep (.read a n) s =
      respond (.data (BitVec.ofNat 32 (leValue (memRead s.dmem (a.toNat - 0x10000) n.bytes)))) s := by
  simp [hostStep, hostRead, target_dmem h, hbusy]

/-- An aligned write in the DMEM window while BUSY = 0 (R44). -/
theorem hostStep_write_window {s : State} {a : Word} {n : AccessSize} (hbusy : s.busy = false)
    (h : s.inDmemWindow a n) (v : Word) : hostStep (.write a n v) s =
      respond .ok { s with dmem := memWrite s.dmem (a.toNat - 0x10000) (leBytes n.bytes v) } := by
  simp [hostStep, hostWrite, target_dmem h, hbusy]

end Sys2Proof.Machine

namespace Sys2Proof.Proofs

open Sys2Proof.Machine

/-- Settles O18: the digit count passes, so the region out of bounds is the first check that fails. -/
theorem regionOutOfBoundsFails : Obligations.RegionOutOfBoundsFails := by
  intro s digits h1 h10
  refine ⟨fun h => ?sha1, fun h => ?prepareKey, fun h => ?hmacSha1, fun h => ?b32Encode, fun h => ?b32Decode,
    fun h => ?hotpTruncate, fun h => ?hotp⟩ <;> refine exec_of_evalCommand_err (e := .bounds) ?_
  case sha1 => exact checkRegions_of_out (by simpa [srcRegion, dstRegion] using h) _
  case prepareKey => exact checkRegions_of_out (by simpa [keyRegion, dstRegion] using h) _
  case hmacSha1 => exact checkRegions_of_out (by simpa [keyRegion, srcRegion, dstRegion] using h) _
  case b32Encode => exact checkRegions_of_out (by simpa [srcRegion, dstRegion, b32TextLength] using h) _
  case b32Decode => exact evalB32Decode_of_out h
  case hotpTruncate =>
    exact (checkDigits_of_inRange h1 h10 _).trans
      (checkRegions_of_out (by simpa [srcDigestRegion, dstRegion] using h) _)
  case hotp =>
    exact (checkDigits_of_inRange h1 h10 _).trans (checkRegions_of_out (by simpa [keyRegion, dstRegion] using h) _)

/-- Settles O46: a malformed transaction has no target, and DMEM's size is a multiple of every access size. -/
theorem malformedTransactions : Obligations.MalformedTransactions := by
  intro s a n v
  exact ⟨fun h => hostStep_of_target_none (target_of_malformed h) v, inDmemWindow_fits⟩

/-- Settles O51: a refusal is `refuse`, and the registers that are not write-locked answer as they do while BUSY = 0. -/
theorem busyLock : Obligations.BusyLock := by
  intro s a n v r hbusy
  refine ⟨fun h => hostStep_dmem_busy hbusy h v, fun hr => ?locked, fun ht => ?malformed, hostStep_read_reg r s,
    fun hr => ?ctrlOrStatus, fun hr => ?readOnly⟩
  case locked => exact hostStep_write_locked hbusy ((writeLocked_iff r).mpr hr) v
  case malformed =>
    obtain ⟨hread, hwrite⟩ := hostStep_of_target_none ht v
    rw [hread, hwrite]
    exact ⟨rfl, rfl⟩
  case ctrlOrStatus =>
    have hopen : writeLocked r = false := by rcases hr with rfl | rfl <;> rfl
    exact hostStep_write_reg r v s (by simp [hopen])
  case readOnly =>
    have hw := hostStep_write_reg r v s (by simp [writeLocked_readOnly hr])
    rw [writeReg_readOnly hr] at hw
    exact hw

/-- Settles O52: the value of the bytes read is their weighted sum and fits a word, and the bytes stored are v's. -/
theorem dmemByteLanes : Obligations.DmemByteLanes := by
  intro s a n v hbusy hmem hwin
  have hwf : s.dmem.wf = true := (Bool.and_eq_true_iff.mp hmem).1
  have hlen := leBytes_length n.bytes v
  refine ⟨⟨_, hostStep_read_window hbusy hwin, ?_⟩, _, hostStep_write_window hbusy hwin v, fun i hi => ?_,
    fun x hx => ?_⟩
  · rw [BitVec.toNat_ofNat, Nat.mod_eq_of_lt (leValue_memRead_lt _ _ n), leValue_memRead]
  · rw [← hlen] at hi
    exact (readByte_memWrite_inside _ i _ hwf hi).trans (leBytes_getElem _ v i hi)
  · rw [← hlen] at hx
    exact readByte_memWrite_outside _ _ x _ hx

end Sys2Proof.Proofs

end

section
/-! PROOFS. The statements of 30_encoding.md: the fields of a CMD word and the decoder's table read through them, the
operands a command reads, an ILLEGAL word's completion, and from these the obligations, each settled at the end. -/

namespace Sys2Proof.Machine

open Sys2Proof.Laws

/-! ### The decoder, by the fields of the word -/

/-- The four fields are the word (R61). -/
theorem toNat_eq_fields (w : Word) : w.toNat =
    cmdOp w + 0x10 * cmdReservedLow w + 0x100 * cmdDigits w + 0x1000 * cmdReservedHigh w := by
  have := w.isLt
  simp only [cmdOp, cmdReservedLow, cmdDigits, cmdReservedHigh, BitVec.extractLsb'_toNat, Nat.shiftRight_eq_div_pow]
  omega

theorem cmdOp_lt (w : Word) : cmdOp w < 16 := (w.extractLsb' 0 4).isLt

theorem cmdReservedLow_lt (w : Word) : cmdReservedLow w < 16 := (w.extractLsb' 4 4).isLt

theorem cmdDigits_lt (w : Word) : cmdDigits w < 16 := (w.extractLsb' 8 4).isLt

theorem opOf_lt (i : Instr) : opOf i < 16 := by cases i <;> simp [opOf]

/-- The reserved bits are 0, and OP and DIGITS are the command's. -/
def HoldsFieldsOf (i : Instr) (w : Word) : Prop :=
  cmdOp w = opOf i ∧ cmdReservedLow w = 0 ∧ cmdDigits w = digitsOf i ∧ cmdReservedHigh w = 0

/-- A word with a command's fields is one number (R60, R61). -/
theorem holdsFieldsOf_iff_toNat (i : Instr) (w : Word) :
    HoldsFieldsOf i w ↔ digitsOf i < 16 ∧ w.toNat = opOf i + digitsOf i * 0x100 := by
  have := toNat_eq_fields w
  have := cmdOp_lt w
  have := cmdReservedLow_lt w
  have := cmdDigits_lt w
  have := opOf_lt i
  unfold HoldsFieldsOf
  omega

theorem holdsFieldsOf_encode {i : Instr} (h : i.wellFormed = true) : HoldsFieldsOf i (encode i) := by
  cases i with
  | sha1 => exact EncodedFields.sha1 h
  | prepareKey => exact EncodedFields.prepareKey h
  | hmacSha1 => exact EncodedFields.hmacSha1 h
  | b32Encode => exact EncodedFields.b32Encode h
  | b32Decode => exact EncodedFields.b32Decode h
  | hotpTruncate digits => exact EncodedFields.hotpTruncate digits h
  | hotp digits => exact EncodedFields.hotp digits h

theorem decodePlain_ok {digits : Nat} {i j : Instr} (h : decodePlain digits i = .ok j) : digits = 0 ∧ i = j := by
  unfold decodePlain at h
  split at h
  · exact ⟨‹_›, Except.ok.inj h⟩
  · cases h

/-- The decoder answers a command exactly on the words that hold its fields (R63). -/
theorem decode_eq_ok_iff (w : Word) (i : Instr) : decode w = .ok i ↔ HoldsFieldsOf i w := by
  constructor
  · intro h
    unfold decode at h
    split at h
    · cases h
    · rename_i hres
      obtain ⟨hhigh, hlow⟩ : cmdReservedHigh w = 0 ∧ cmdReservedLow w = 0 := by simpa using hres
      split at h
      case h_6 | h_7 => cases h; exact ⟨‹_›, hlow, rfl, hhigh⟩
      case h_8 => cases h
      all_goals
        obtain ⟨hdigits, rfl⟩ := decodePlain_ok h
        exact ⟨‹_›, hlow, hdigits, hhigh⟩
  · rintro ⟨hop, hlow, hdigits, hhigh⟩
    cases i <;> simp [decode, decodePlain, hop, hlow, hdigits, hhigh, opOf, digitsOf]

/-! ### The operands a command reads -/

theorem srcRegion_congr {r r' : Operands} (ha : r.srcAddr = r'.srcAddr) (hl : r.srcLen = r'.srcLen) :
    srcRegion r = srcRegion r' := by
  rw [srcRegion, ha, hl, srcRegion]

theorem keyRegion_congr {r r' : Operands} (ha : r.keyAddr = r'.keyAddr) (hl : r.keyLen = r'.keyLen) :
    keyRegion r = keyRegion r' := by
  rw [keyRegion, ha, hl, keyRegion]

theorem counter_congr {r r' : Operands} (hlo : r.counterLo = r'.counterLo) (hhi : r.counterHi = r'.counterHi) :
    counter r = counter r' := by
  rw [counter, hlo, hhi, counter]

/-- `Exec` reads no operand register that R62 does not list for the command. -/
theorem evalCommand_of_agreeOn {i : Instr} {r r' : Operands} (h : agreeOn i r r') (c : Config) (m : Memory) :
    evalCommand i c r m = evalCommand i c r' m := by
  obtain ⟨hdst, h⟩ := h
  cases i with unfold evalCommand
  | sha1 =>
    obtain ⟨ha, hl⟩ := h
    unfold evalSha1 dstRegion
    rw [srcRegion_congr ha hl, hdst]
  | prepareKey =>
    obtain ⟨ha, hl⟩ := h
    unfold evalPrepareKey dstRegion
    rw [keyRegion_congr ha hl, hdst]
  | hmacSha1 =>
    obtain ⟨hka, hkl, hsa, hsl⟩ := h
    unfold evalHmacSha1 dstRegion
    rw [keyRegion_congr hka hkl, srcRegion_congr hsa hsl, hdst]
  | b32Encode =>
    obtain ⟨ha, hl⟩ := h
    unfold evalB32Encode dstRegion
    rw [srcRegion_congr ha hl, hl, hdst]
  | b32Decode =>
    obtain ⟨ha, hl⟩ := h
    unfold evalB32Decode dstRegion
    rw [srcRegion_congr ha hl, hdst]
  | hotpTruncate digits =>
    unfold evalHotpTruncate dstRegion srcDigestRegion
    rw [h, hdst]
  | hotp digits =>
    obtain ⟨hka, hkl, hlo, hhi⟩ := h
    unfold evalHotp dstRegion
    rw [keyRegion_congr hka hkl, counter_congr hlo hhi, hdst]

/-- The end of a command neither reads nor writes the operand registers (R77). -/
theorem finish_operands_comm (x : ExecResult) (s : State) (r : Operands) :
    finish x { s with operands := r } = { finish x s with operands := r } := by
  cases x <;> rfl

/-! ### The engine's turn on an ILLEGAL word -/

/-- With nothing pending it is the engine's turn (log entry 4). -/
theorem step_of_pending_nil {s : State} (hp : s.pending = []) : step s = engineTurn s := by
  rw [step, hp]

theorem step_of_pending_complete {s : State} {rest : List Event} (hp : s.pending = .complete :: rest) :
    step s = engineTurn { s with pending := rest } := by
  rw [step, hp]

/-- An ILLEGAL word completes with ILLEGAL_CMD (R64, R74). -/
theorem engineTurn_of_illegal {s : State} {e : Illegal} (hbusy : s.busy = true) (hd : decode s.cmd = .error e) :
    engineTurn s = .next (s.failed 5) := by
  rw [engineTurn, if_pos hbusy, hd]
  rfl

/-! ### The transactions of the assembler -/

/-- `put` stores a byte's value, zero-extended (R69). -/
theorem putBytes_cons (o : Nat) (b : Byte) (bs : ByteSeq) : putBytes o (b :: bs) =
    .write (dmemAddress o) .byte (BitVec.ofNat 32 b.toNat) :: putBytes (o + 1) bs := by
  rw [putBytes, BitVec.ofNat_toNat]

/-- `ctr` splits the counter into its low and its high word (R29, R69). -/
theorem ctr_words_toNat (v : BitVec 64) : (v.extractLsb' 0 32).toNat = v.toNat % 2 ^ 32 ∧
    (v.extractLsb' 32 32).toNat = v.toNat / 2 ^ 32 := by
  have := v.isLt
  simp only [BitVec.extractLsb'_toNat, Nat.shiftRight_eq_div_pow]
  omega

end Sys2Proof.Machine

namespace Sys2Proof.Proofs

open Sys2Proof.Machine

/-- Settles O1: the encoding holds the command's fields, and those are what the decoder reads. -/
theorem decodeOfEncodeIsTheCommand : Obligations.DecodeOfEncodeIsTheCommand :=
  fun i h => (decode_eq_ok_iff (encode i) i).mpr (holdsFieldsOf_encode h)

/-- Settles O2: the words that hold a command's fields, one command at a time. -/
theorem legalWordsAreExactly : Obligations.LegalWordsAreExactly := by
  intro w i
  rw [decode_eq_ok_iff, holdsFieldsOf_iff_toNat]
  cases i <;> simp [Laws.opOf, Laws.digitsOf, ← BitVec.toNat_inj]

/-- Settles O27: the command's result is the same, and its end leaves the operand registers alone. -/
theorem unlistedOperandsAreIgnored : Obligations.UnlistedOperandsAreIgnored := by
  intro i s r h
  refine ⟨_, exec_eq_finish i s, ?_⟩
  rw [exec_eq_finish, finish_operands_comm, ← evalCommand_of_agreeOn h]

/-- Settles O5: every line is its expansion by definition but `put`'s byte value and `ctr`'s two words. -/
theorem assemblerLinesExpand : Obligations.AssemblerLinesExpand :=
  ⟨fun _ => rfl, fun _ => ⟨rfl, rfl⟩, fun _ _ => rfl, fun _ _ => rfl, fun _ => rfl,
    fun v => ⟨_, _, rfl, ctr_words_toNat v⟩, putBytes_cons, fun _ => rfl, fun _ _ => rfl, fun _ => rfl, rfl,
    fun _ _ => rfl, fun _ _ => rfl⟩

/-- Settles O8: with nothing pending or with its own event next, the step is the engine's turn. -/
theorem illegalWordCompletes : Obligations.IllegalWordCompletes := by
  intro s e hbusy hd
  refine ⟨fun hp => ?_, fun rest hp => ?_⟩
  · rw [step_of_pending_nil hp]
    exact engineTurn_of_illegal hbusy hd
  · rw [step_of_pending_complete hp]
    exact engineTurn_of_illegal (s := { s with pending := rest }) hbusy hd

end Sys2Proof.Proofs

end

section
/-! PROOFS. The statements of 40_command.md: a command's end read off its result, the steps of a run, what a running
command keeps while the host goes on, and from these the obligations, each settled at the end. -/

namespace Sys2Proof.Machine

/-! ### The end of a command -/

/-- Every kind of error has a nonzero code (R133). -/
theorem toCode_ne_zero (e : ErrorKind) : e.toCode ≠ 0 := by
  cases e <;> decide

@[simp] theorem finish_busy (x : ExecResult) (s : State) : (finish x s).busy = false := by
  cases x <;> rfl

@[simp] theorem finish_done (x : ExecResult) (s : State) : (finish x s).done = true := by
  cases x <;> rfl

@[simp] theorem finish_pending (x : ExecResult) (s : State) : (finish x s).pending = s.pending := by
  cases x <;> rfl

/-- The code a command ends with is its result's. -/
theorem finish_errCode_congr (x : ExecResult) (s u : State) : (finish x u).errCode = (finish x s).errCode := by
  cases x <;> rfl

/-- The output a command stores is its result's. -/
theorem finish_dmem_congr (x : ExecResult) {s u : State} (h : u.dmem = s.dmem) :
    (finish x u).dmem = (finish x s).dmem := by
  cases x with
  | err e => exact h
  | ok o out w => exact congrArg (memWrite · o out) h

/-- A command ends with an error and no output, or with an output inside DMEM at DST_ADDR (R76, R77). -/
theorem exec_next_cases {i : Instr} {s t : State} (h : exec i s = .next t) :
    (∃ e : ErrorKind, t = s.failed e.toCode) ∨
    ∃ out w, out.length = storedLength i s ∧ s.operands.dstAddr.toNat + out.length ≤ s.cfg.dmemBytes ∧
      w.ofCommand i ∧ t = s.completed out (s.results.apply out.length w) := by
  rw [exec_eq_finish] at h
  cases h
  rcases evalCommand_cases i s with ⟨e, -, hr⟩ | ⟨out, w, hr, hlen, hfit, hw⟩ <;> rw [hr]
  · exact .inl ⟨e, rfl⟩
  · exact .inr ⟨out, w, hlen, hfit, hw, rfl⟩

/-! ### The result registers of a command's row (R78) -/

theorem apply_digest_of_not_writes {i : Instr} {w : ResultWrites} (hw : w.ofCommand i) (h : writesDigest i = false)
    (r : Results) (n : Nat) : (r.apply n w).digest = r.digest := by
  obtain ⟨hd, -⟩ := hw
  rw [h, Option.isSome_eq_false_iff, Option.isNone_iff_eq_none] at hd
  rw [Results.apply, hd, Option.getD_none]

/-- A digest that is written does not depend on the one that stood there. -/
theorem apply_digest_of_writes {i : Instr} {w : ResultWrites} (hw : w.ofCommand i) (h : writesDigest i = true)
    (r r' : Results) (n : Nat) : (r'.apply n w).digest = (r.apply n w).digest := by
  obtain ⟨hd, -⟩ := hw
  rw [h, Option.isSome_iff_exists] at hd
  obtain ⟨d, hd⟩ := hd
  simp only [Results.apply, hd, Option.getD_some]

theorem apply_truncation_of_not_writes {i : Instr} {w : ResultWrites} (hw : w.ofCommand i)
    (h : writesTruncation i = false) (r : Results) (n : Nat) :
    (r.apply n w).truncOffset = r.truncOffset ∧ (r.apply n w).truncP = r.truncP ∧ (r.apply n w).code = r.code := by
  obtain ⟨-, ⟨-, ho, hp, hc⟩ | ⟨hwrites, -⟩⟩ := hw
  · simp only [Results.apply, ho, hp, hc, Option.getD_none, and_self]
  · exact nomatch h.symm.trans hwrites

/-- Truncation registers that are written do not depend on what stood there. -/
theorem apply_truncation_of_writes {i : Instr} {w : ResultWrites} (hw : w.ofCommand i)
    (h : writesTruncation i = true) (r r' : Results) (n : Nat) :
    (r'.apply n w).truncOffset = (r.apply n w).truncOffset ∧ (r'.apply n w).truncP = (r.apply n w).truncP ∧
      (r'.apply n w).code = (r.apply n w).code := by
  obtain ⟨-, ⟨hwrites, -⟩ | ⟨-, hs, digits, ho, hp, hc⟩⟩ := hw
  · exact nomatch h.symm.trans hwrites
  · simp only [Results.apply, ho, hp, hc, Option.getD_some, and_self]

/-! ### The steps of a run -/

theorem step_of_pending_host {s : State} {x : Transaction} {rest : List Event} (hp : s.pending = .host x :: rest) :
    step s = .next (hostStep x { s with pending := rest }) := by
  rw [step, hp]

/-- The engine's turn passes while BUSY = 0 (log entry 4). -/
theorem engineTurn_of_idle {s : State} (h : s.busy = false) : engineTurn s = .next s := by
  simp [engineTurn, h]

theorem engineTurn_of_decode {s : State} {i : Instr} (hbusy : s.busy = true) (hd : decode s.cmd = .ok i) :
    engineTurn s = exec i s := by
  simp [engineTurn, hbusy, hd]

/-- While BUSY = 1 the engine's turn completes, whatever word CMD holds (R77). -/
theorem engineTurn_completes {s : State} (hbusy : s.busy = true) :
    ∃ t, engineTurn s = .next t ∧ t.busy = false ∧ t.done = true := by
  cases hd : decode s.cmd with
  | error e => exact ⟨_, engineTurn_of_illegal hbusy hd, rfl, rfl⟩
  | ok i =>
    rw [engineTurn_of_decode hbusy hd, exec_eq_finish]
    exact ⟨_, rfl, finish_busy _ _, finish_done _ _⟩

theorem after_succ_of_step {s t : State} (h : step s = .next t) (n : Nat) :
    State.after (n + 1) s = State.after n t := by
  rw [State.after, h]

/-- A word of the opcode table is a CMD word (log entry 6). -/
theorem decode_of_decodeTableWord {w : Nat} {i : Instr} (h : decodeTableWord 32 w = some i) :
    decode (BitVec.ofNat 32 (w % 2 ^ 32)) = .ok i := by
  rw [decodeTableWord, if_pos (Nat.mod_lt w (by decide))] at h
  cases hd : decode (BitVec.ofNat 32 (w % 2 ^ 32)) with
  | error e => rw [hd] at h; cases h
  | ok j => rw [hd] at h; cases h; rfl

/-- What a STATUS read returns after an acceptance: BUSY, and ACCESS_ERR as it was (R25, R71). -/
theorem statusWord_accept (v : Word) (s : State) : statusWord (accept v s) = if s.accessErr then 5 else 1 := by
  cases h : s.accessErr <;> simp [statusWord, h]

/-! ### A running command -/

/-- The two states agree on BUSY and on all that the running command computes on and writes: what its completion reads
(R72) and what the host port refuses to change while BUSY = 1 (R46). -/
structure SameCommand (s u : State) : Prop where
  cfg : u.cfg = s.cfg
  busy : u.busy = s.busy
  cmd : u.cmd = s.cmd
  operands : u.operands = s.operands
  results : u.results = s.results
  dmem : u.dmem = s.dmem

theorem SameCommand.trans {s t u : State} (h : SameCommand s t) (h' : SameCommand t u) : SameCommand s u :=
  ⟨h'.cfg.trans h.cfg, h'.busy.trans h.busy, h'.cmd.trans h.cmd, h'.operands.trans h.operands,
    h'.results.trans h.results, h'.dmem.trans h.dmem⟩

theorem SameCommand.refl (s : State) : SameCommand s s := ⟨rfl, rfl, rfl, rfl, rfl, rfl⟩

theorem sameCommand_pending (s : State) (p : List Event) : SameCommand s { s with pending := p } :=
  ⟨rfl, rfl, rfl, rfl, rfl, rfl⟩

theorem sameCommand_respond (r : Response) (s : State) : SameCommand s (respond r s) := ⟨rfl, rfl, rfl, rfl, rfl, rfl⟩

theorem sameCommand_refuse (s : State) : SameCommand s (refuse s) := ⟨rfl, rfl, rfl, rfl, rfl, rfl⟩

theorem SameCommand.evalCommand_eq {s u : State} (h : SameCommand s u) (i : Instr) :
    evalCommand i u.cfg u.operands u.dmem = evalCommand i s.cfg s.operands s.dmem := by
  rw [h.cfg, h.operands, h.dmem]

/-- The end of a command leaves such states the same in all of it, and with the same code. -/
theorem SameCommand.finish {s u : State} (h : SameCommand s u) (x : ExecResult) :
    SameCommand (finish x s) (finish x u) := by
  obtain ⟨hcfg, -, hcmd, hops, hres, hmem⟩ := h
  cases x with
  | err e => exact ⟨hcfg, rfl, hcmd, hops, hres, hmem⟩
  | ok o out w => exact ⟨hcfg, rfl, hcmd, hops, congrArg (·.apply out.length w) hres, finish_dmem_congr _ hmem⟩

/-- The registers open to the host while BUSY = 1 (R46). -/
theorem open_reg_cases {r : Reg} (h : writeLocked r = false) : r = .ctrl ∨ r = .status ∨ r ∈ readOnlyRegs := by
  cases r <;> revert h <;> decide

theorem writeReg_sameCommand {r : Reg} {v : Word} (hopen : writeLocked r = false) (hv : r = .ctrl → v[1] = false)
    (s : State) : SameCommand s (writeReg r v s) := by
  rcases open_reg_cases hopen with rfl | rfl | hr
  · rw [writeReg, writeCtrl, if_neg (by simp [hv rfl])]
    exact ⟨rfl, rfl, rfl, rfl, rfl, rfl⟩
  · exact ⟨rfl, rfl, rfl, rfl, rfl, rfl⟩
  · rw [writeReg_readOnly hr]
    exact .refl s

/-- While BUSY = 1 a transaction that is no soft reset leaves the running command alone (R46, R54). -/
theorem hostStep_sameCommand {x : Transaction} {s : State} (hbusy : s.busy = true) (hx : x.resets = false) :
    SameCommand s (hostStep x s) := by
  cases x with
  | read a n =>
    rw [hostStep]
    rcases hostRead_cases a n s with h | ⟨v, h⟩ | ⟨-, h⟩ <;> rw [h]
    · exact sameCommand_respond _ s
    · exact sameCommand_respond _ s
    · exact sameCommand_refuse s
  | write a n v =>
    rw [hostStep]
    rcases hostWrite_cases a n v s with h | ⟨-, h⟩ | ⟨r, rfl, rfl, hopen, h⟩ | ⟨hidle, -⟩
    · exact h ▸ sameCommand_respond _ s
    · exact h ▸ sameCommand_refuse s
    · have hv : r = .ctrl → v[1] = false := by
        rintro rfl
        simpa [Transaction.resets, regAddress, Reg.offset] using hx
      exact h ▸ (writeReg_sameCommand (hopen hbusy) hv s).trans (sameCommand_respond _ _)
    · exact nomatch hbusy.symm.trans hidle

theorem hostEffect_pending {x : Transaction} {s t : State} (h : HostEffect x s t) : t.pending = s.pending := by
  cases h <;> rfl

/-- A run over the host's transactions while BUSY = 1: the command is as it was, and what was pending after them is
next. -/
theorem after_hosts (ts : List Transaction) (rest : List Event) {s : State} (hbusy : s.busy = true)
    (hp : s.pending = ts.map .host ++ rest) (hts : ∀ x ∈ ts, x.resets = false) :
    ∃ u, (∀ n, State.after (ts.length + n) s = State.after n u) ∧ u.pending = rest ∧ SameCommand s u := by
  induction ts generalizing s with
  | nil => exact ⟨s, fun n => by rw [List.length_nil, Nat.zero_add], hp, .refl s⟩
  | cons x ts ih =>
    obtain ⟨hx, hts⟩ := List.forall_mem_cons.mp hts
    have hstep := step_of_pending_host (rest := ts.map .host ++ rest) hp
    have hsame := hostStep_sameCommand (s := { s with pending := ts.map .host ++ rest }) hbusy hx
    obtain ⟨u, hrun, hrest, hu⟩ := ih (hsame.busy.trans hbusy) (hostEffect_pending (hostStep_effect x _)) hts
    refine ⟨u, fun n => ?_, hrest, ((sameCommand_pending s _).trans hsame).trans hu⟩
    rw [List.length_cons, Nat.add_right_comm, after_succ_of_step hstep, hrun]

end Sys2Proof.Machine

namespace Sys2Proof.Proofs

open Sys2Proof.Machine

/-- Settles O21: a nonzero code rules out the branches that pass or store. -/
theorem errorsArePrecise : Obligations.ErrorsArePrecise := by
  intro s t hbusy ht hcode
  rcases engineTurn_cases s with ⟨hidle, -⟩ | ⟨-, e, -, he⟩ | ⟨-, i, out, w, -, -, -, -, he⟩
  · exact nomatch hbusy.symm.trans hidle
  · rw [he] at ht; cases ht; rfl
  · rw [he] at ht; cases ht; exact absurd rfl hcode

/-- Settles O23: the output's length fits OUT_LEN because it fits DMEM, and a store leaves what is outside it. -/
theorem commandsLeaveOtherBytes : Obligations.CommandsLeaveOtherBytes := by
  refine ⟨fun i s t h => ?frame, fun s out r j hmem hj => ?stored, fun m a n => ?read⟩
  case frame =>
    rcases exec_next_cases h with ⟨e, rfl⟩ | ⟨out, w, hlen, hfit, -, rfl⟩
    · exact ⟨fun h0 => absurd h0 (toCode_ne_zero e), fun _ _ => rfl⟩
    · have := dmemBytes_le s.cfg
      refine ⟨fun _ => ⟨?_, fun a ha => ?_⟩, fun hne => absurd rfl hne⟩
      · simp only [State.completed, Results.apply, BitVec.toNat_ofNat]
        omega
      · exact readByte_memWrite_outside _ _ a out (hlen ▸ ha)
  case stored =>
    rw [byteAt, List.getD_eq_getElem _ _ hj]
    exact readByte_memWrite_inside _ j out (Bool.and_eq_true_iff.mp hmem).1 hj
  case read =>
    refine ⟨memRead_length m a n, fun j hj => ?_⟩
    have hj' : j < (memRead m a n).length := by rwa [memRead_length]
    rw [byteAt, List.getD_eq_getElem _ _ hj', memRead_getElem]

/-- Settles O24: an error writes no result register, a success those of the command's row. -/
theorem commandsLeaveOtherResults : Obligations.CommandsLeaveOtherResults := by
  intro i s t h
  rcases exec_next_cases h with ⟨e, rfl⟩ | ⟨out, w, -, -, hw, rfl⟩
  · exact ⟨fun _ => rfl, fun _ => ⟨rfl, rfl, rfl⟩, fun _ => rfl⟩
  · exact ⟨fun hd => apply_digest_of_not_writes hw hd _ _, fun ht => apply_truncation_of_not_writes hw ht _ _,
      fun hne => absurd rfl hne⟩

/-- Settles O26: both states give `Exec` the same arguments, and a register it writes holds the value it returns. -/
theorem execReadsOnlyOperandsAndDmem : Obligations.ExecReadsOnlyOperandsAndDmem := by
  intro i s s' hcfg hops hmem
  refine ⟨_, _, exec_eq_finish i s, exec_eq_finish i s', ?_⟩
  rw [hcfg, hops, hmem]
  refine ⟨finish_errCode_congr _ s s', finish_dmem_congr _ hmem, fun hcode => ?_⟩
  rcases evalCommand_cases i s with ⟨e, -, hr⟩ | ⟨out, w, hr, -, -, hw⟩ <;> rw [hr] at hcode ⊢
  · exact absurd hcode (toCode_ne_zero e)
  · exact ⟨rfl, fun hd => apply_digest_of_writes hw hd _ _ _, fun ht => apply_truncation_of_writes hw ht _ _ _⟩

/-- Settles O58: the transactions leave the running command as at acceptance, so its completion is the same. -/
theorem resultDoesNotDependOnInterleaving : Obligations.ResultDoesNotDependOnInterleaving := by
  intro s i ts rest hbusy hd hts
  obtain ⟨u, hrun, hp, hu⟩ := after_hosts ts (.complete :: rest) (s := s.plan ts (.complete :: rest)) hbusy rfl hts
  have hsame : SameCommand s u := (sameCommand_pending s _).trans hu
  have hsame' : SameCommand s { u with pending := rest } := hsame.trans (sameCommand_pending u rest)
  have hturn : step u = exec i { u with pending := rest } := by
    rw [step_of_pending_complete hp]
    exact engineTurn_of_decode (hsame.busy.trans hbusy) (hsame.cmd ▸ hd)
  have hend := hsame'.finish (evalCommand i s.cfg s.operands s.dmem)
  rw [exec_eq_finish, hsame'.evalCommand_eq] at hturn
  exact ⟨u, _, _, hrun 0, hturn, exec_eq_finish i s, hp, hsame.busy.trans hbusy, hsame.cmd, hsame.operands,
    hsame.dmem, hsame.results, finish_busy _ _, finish_done _ _, finish_errCode_congr _ _ _, hend.dmem, hend.results,
    hend.cmd, hend.operands, finish_pending _ _⟩

/-- Settles O59: BUSY is still 1 after the transactions, and with nothing pending the next step is the engine's. -/
theorem busyCommandCompletes : Obligations.BusyCommandCompletes := by
  intro s ts hbusy hts
  obtain ⟨u, hrun, hp, hu⟩ := after_hosts ts [] (s := s.plan ts []) hbusy rfl hts
  obtain ⟨v, hv, hidle, hdone⟩ := engineTurn_completes (hu.busy.trans hbusy)
  exact ⟨v, (hrun 1).trans (after_succ_of_step ((step_of_pending_nil hp).trans hv) 0), hidle, hdone⟩

/-- Settles O6: the step is the engine's turn, and while BUSY = 1 that is `exec` of the decoded command. -/
theorem stepRunsTheDecodedCommand : Obligations.StepRunsTheDecodedCommand := by
  refine ⟨fun s i hbusy hd hp => ?_, fun s i rest hbusy hd hp => ?_, fun s w i h => ?_⟩
  · rw [step_of_pending_nil hp, engineTurn_of_decode hbusy hd]
  · rw [step_of_pending_complete hp]
    exact engineTurn_of_decode hbusy hd
  · have hword : BitVec.ofNat 32 (w % 2 ^ 32) = BitVec.ofNat 32 w := BitVec.eq_of_toNat_eq (by simp)
    have hd := decode_of_decodeTableWord h
    rw [step_of_pending_complete (s := s.withFetchWord 32 w) rfl, State.withFetchWord]
    rw [hword] at hd ⊢
    exact engineTurn_of_decode rfl hd

/-- Settles O7: one equation of `step` for each kind of event, and the idle engine's turn. -/
theorem stepTakesTheFirstEvent : Obligations.StepTakesTheFirstEvent := by
  refine ⟨fun s x rest hp => step_of_pending_host hp, fun s rest hidle hp => ?_, fun s hidle hp => ?_⟩
  · rw [step_of_pending_complete hp]
    exact engineTurn_of_idle hidle
  · rw [step_of_pending_nil hp, engineTurn_of_idle hidle]

/-- Settles O10: while BUSY = 0 nothing is locked, and the next read finds STATUS as the acceptance left it. -/
theorem cmdWriteIsAccepted : Obligations.CmdWriteIsAccepted := by
  intro s v hidle
  have hwrite : hostStep (.write 0x14 .word v) s = respond .ok (accept v s) :=
    hostStep_write_reg .cmd v s (by simp [hidle])
  refine ⟨hwrite, ?_⟩
  rw [hwrite, ← statusWord_accept v s]
  exact congrArg State.response (hostStep_read_reg .status (respond .ok (accept v s)))

/-- Settles O60: CTRL is not locked, so the registers are reset, and the turn that follows finds BUSY = 0. -/
theorem softResetAbandonsTheCommand : Obligations.SoftResetAbandonsTheCommand := by
  intro s v rest _ hv hp
  have hreset : hostStep (.write 0x0C .word v) { s with pending := .complete :: rest }
      = respond .ok (resetRegisters { s with pending := .complete :: rest }) := by
    refine (hostStep_write_reg .ctrl v _ (by simp [writeLocked])).trans ?_
    rw [writeReg, writeCtrl, if_pos hv]
  have hfirst := (step_of_pending_host hp).trans (congrArg Host.Outcome.next hreset)
  have hsecond := (step_of_pending_complete (rest := rest)
    (s := respond .ok (resetRegisters { s with pending := .complete :: rest })) rfl).trans (engineTurn_of_idle rfl)
  exact ⟨_, (after_succ_of_step hfirst 1).trans (after_succ_of_step hsecond 0), rfl, rfl, rfl, rfl, rfl, rfl⟩

end Sys2Proof.Proofs

end

section
/-! PROOFS. The statements of 41_sha1.md: padding, the schedule, the rounds of a block, the digest's bytes, the engine's
phases, and from these the obligations, each settled at the end. -/

namespace Sys2Proof.Machine

/-! ### Padding -/

theorem padZeros_le (L : Nat) : padZeros L ≤ 63 := by rw [padZeros]; omega

/-- The model's count of zero bytes is the spec's, which passes through a negative number (R85). -/
theorem padZeros_eq_mod (L : Nat) : (padZeros L : Int) = (55 - (L : Int)) % 64 := by rw [padZeros]; omega

/-- The zero bytes leave exactly the length field free in the last block (R85). -/
theorem padZeros_fills (L : Nat) : (L + 1 + padZeros L) % 64 = 56 := by rw [padZeros]; omega

theorem padZeros_unique {L y : Nat} (hy : y ≤ 63) (h : (L + 1 + y) % 64 = 56) : y = padZeros L := by
  rw [padZeros]; omega

theorem pad_eq (m : ByteSeq) : pad m = m ++ 0x80 :: (List.replicate (padZeros m.length) 0x00
    ++ be64bytes (BitVec.ofNat 64 (8 * m.length))) := by
  simp [pad, bytesOf]

/-- The padding is one byte, the zero bytes and the eight bytes of the length field (R85). -/
theorem pad_length_eq_add (m : ByteSeq) : (pad m).length = m.length + 9 + padZeros m.length := by
  simp only [pad_eq, List.length_append, List.length_cons, List.length_replicate, be64bytes_length]
  omega

/-- The n low bytes of a number, the most significant first, spell it modulo 256^n. -/
theorem beValue_map_byteOf (v n : Nat) : beValue ((List.range n).map fun i => byteOf v (n - 1 - i)) = v % 256 ^ n := by
  induction n with
  | zero => simp [beValue, Nat.mod_one]
  | succ n ih =>
    have htail : ((List.range n).map fun i => byteOf v (n - (i + 1)))
        = (List.range n).map fun i => byteOf v (n - 1 - i) :=
      List.map_congr_left fun i _ => by rw [show n - (i + 1) = n - 1 - i by omega]
    have hhead : beValue [byteOf v n] = v / 256 ^ n % 256 := by
      simp [beValue, pow_mul]
    rw [List.range_succ_eq_map, List.map_cons, List.map_map, ← List.singleton_append, beValue_append]
    simp only [Function.comp_def, Nat.succ_eq_add_one, htail, ih, Nat.add_sub_cancel, Nat.sub_zero, hhead,
      List.length_map, List.length_range, Nat.mod_pow_succ]
    ring

/-- Eight big-endian bytes spell their number (R14). -/
theorem beValue_be64bytes (v : BitVec 64) : beValue (be64bytes v) = v.toNat :=
  (beValue_map_byteOf v.toNat 8).trans (Nat.mod_eq_of_lt v.isLt)

/-! ### The schedule -/

theorem byteAt_take_drop (s : ByteSeq) (a : Nat) {n i : Nat} (h : i < n) :
    byteAt ((s.drop a).take n) i = byteAt s (a + i) := by
  simp [byteAt, List.getD_eq_getElem?_getD, h]

theorem blockWords_getD (x : ByteSeq) {t : Nat} (ht : t < 16) : (blockWords x).getD t 0 =
    be32 [byteAt x (4 * t), byteAt x (4 * t + 1), byteAt x (4 * t + 2), byteAt x (4 * t + 3)] := by
  have hbyte : ∀ j, j < 4 → byteAt ((x.drop (4 * t)).take 4) j = byteAt x (4 * t + j) :=
    fun _ => byteAt_take_drop x (4 * t)
  rw [List.getD_eq_getElem _ _ (by simpa using ht)]
  simp only [blockWords, List.getElem_map, List.getElem_range, be32]
  rw [hbyte 0 (by decide), hbyte 1 (by decide), hbyte 2 (by decide), hbyte 3 (by decide)]
  rfl

/-- The schedule grows at its end only. -/
theorem expand_getD_of_lt (k : Nat) {w : List Word} {t : Nat} (ht : t < w.length) :
    (expand k w).getD t 0 = w.getD t 0 := by
  induction k generalizing w with
  | zero => rfl
  | succ k ih => rw [expand, ih (by simp; omega), List.getD_append _ _ _ _ ht]

/-- Each word that the schedule grows by is the recurrence over the words before it (R90). -/
theorem expand_getD_of_ge (k : Nat) {w : List Word} {t : Nat} (hw : 0 < w.length) (hge : w.length ≤ t)
    (hlt : t < w.length + k) : (expand k w).getD t 0 = rotl32 ((expand k w).getD (t - 3) 0
      ^^^ (expand k w).getD (t - 8) 0 ^^^ (expand k w).getD (t - 14) 0 ^^^ (expand k w).getD (t - 16) 0) 1 := by
  induction k generalizing w with
  | zero => omega
  | succ k ih =>
    by_cases ht : t = w.length
    · have hold : ∀ d, 0 < d → (expand (k + 1) w).getD (t - d) 0 = w.getD (t - d) 0 :=
        fun d hd => expand_getD_of_lt _ (by omega)
      have hnew : (expand (k + 1) w).getD t 0 = nextWord w := by
        rw [expand, expand_getD_of_lt _ (by simp [ht]), ht, List.getD_append_right _ _ _ _ le_rfl, Nat.sub_self]
        rfl
      rw [hnew, hold 3 (by decide), hold 8 (by decide), hold 14 (by decide), hold 16 (by decide), ht]
      rfl
    · rw [expand]
      exact ih (by simp) (by simp; omega) (by simp; omega)

/-! ### The rounds -/

theorem rounds_append (t : Nat) (ws : List Word) (w : Word) (x : Working) :
    rounds t (ws ++ [w]) x = roundStep (t + ws.length) w (rounds t ws x) := by
  induction ws generalizing t x with
  | nil => rfl
  | cons v ws ih =>
    rw [List.cons_append, rounds, ih, rounds, List.length_cons, show t + 1 + ws.length = t + (ws.length + 1) by omega]

/-- The working words of a block after its first t rounds (R94). -/
def workingAfter (h : HashWords) (x : ByteSeq) (t : Nat) : Working :=
  rounds 0 ((schedule x).take t) (loadWorking h)

theorem workingAfter_zero (h : HashWords) (x : ByteSeq) : workingAfter h x 0 = loadWorking h := by
  rw [workingAfter, List.take_zero, rounds]

theorem workingAfter_succ (h : HashWords) (x : ByteSeq) {t : Nat} (ht : t < 80) :
    workingAfter h x (t + 1) = roundStep t ((schedule x).getD t 0) (workingAfter h x t) := by
  have hlen : t < (schedule x).length := by rwa [schedule_length]
  rw [workingAfter, List.take_succ_eq_append_getElem hlen, rounds_append, List.length_take_of_le hlen.le,
    Nat.zero_add, List.getD_eq_getElem _ _ hlen, workingAfter]

theorem compress_eq_workingAfter (h : HashWords) (x : ByteSeq) :
    compress h x = feedForward h (workingAfter h x 80) := by
  rw [compress, workingAfter, List.take_of_length_le (schedule_length x).le]

/-! ### The blocks and the digest -/

theorem hashBlocks_zero (p : ByteSeq) (blk : Nat) (h : HashWords) : hashBlocks p 0 blk h = h := rfl

/-- The step equation of `hashBlocks`. The `delta` is needed: on the two sides as they stand, the kernel unfolds the
eighty rounds of `compress` over a variable and runs too deep. -/
theorem hashBlocks_succ (p : ByteSeq) (n blk : Nat) (h : HashWords) :
    hashBlocks p (n + 1) blk h = hashBlocks p n (blk + 1) (compress h (blockAt p blk)) := by
  delta hashBlocks
  rfl

theorem hashBlocks_eq_foldl (p : ByteSeq) (n blk : Nat) (h : HashWords) :
    hashBlocks p n blk h = (List.range' blk n).foldl (fun h blk => compress h (blockAt p blk)) h := by
  induction n generalizing blk h with
  | zero => rfl
  | succ n ih => rw [hashBlocks_succ, ih, List.range'_succ, List.foldl_cons]

theorem byteAt_be32bytes (w : Word) {j : Nat} (hj : j < 4) :
    byteAt (be32bytes w) j = w.extractLsb' (24 - 8 * j) 8 := by
  have hbyte : byteAt (be32bytes w) j = byteOf w.toNat (3 - j) := by
    interval_cases j <;> rfl
  rw [hbyte, byteOf_eq_extractLsb', show 8 * (3 - j) = 24 - 8 * j by omega]

/-- Byte 4i+j of a digest is byte j of word i (R98). -/
theorem byteAt_digestBytes (h : HashWords) {j : Nat} (hj : j < 4) :
    byteAt (digestBytes h) j = byteAt (be32bytes h.h0) j ∧
    byteAt (digestBytes h) (4 + j) = byteAt (be32bytes h.h1) j ∧
    byteAt (digestBytes h) (8 + j) = byteAt (be32bytes h.h2) j ∧
    byteAt (digestBytes h) (12 + j) = byteAt (be32bytes h.h3) j ∧
    byteAt (digestBytes h) (16 + j) = byteAt (be32bytes h.h4) j := by
  interval_cases j <;> exact ⟨rfl, rfl, rfl, rfl, rfl⟩

theorem sha1_eq_blockCount (m : ByteSeq) :
    sha1 m = digestBytes (hashBlocks (pad m) (blockCount m.length) 0 hInit) := by
  rw [sha1, pad_blocks]

theorem sha1_abc : sha1 [0x61, 0x62, 0x63] = [0xa9, 0x99, 0x3e, 0x36, 0x47, 0x06, 0x81, 0x6a, 0xba, 0x3e, 0x25, 0x71,
    0x78, 0x50, 0xc2, 0x6c, 0x9c, 0xd0, 0xd8, 0x9d] := by decide +kernel

theorem sha1_nil : sha1 [] = [0xda, 0x39, 0xa3, 0xee, 0x5e, 0x6b, 0x4b, 0x0d, 0x32, 0x55, 0xbf, 0xef, 0x95, 0x60, 0x18,
    0x90, 0xaf, 0xd8, 0x07, 0x09] := by decide +kernel

/-! ### The phases of a pass

A pass carries two numbers from phase to phase: the steps still to go, which fall by one, and the accumulators that it
will end with, which stay. -/

/-- What holds of the hidden state in each phase of a pass over m, whatever the pass found before INIT (R99). -/
def Pass.OnCourse (m : ByteSeq) (p : Pass) : Prop :=
  match p.phase with
  | .init | .out => True
  | .load | .feed => p.hash.blk < blockCount m.length
  | .expand => p.hash.blk < blockCount m.length ∧ p.hash.w.length = 16
  | .round => p.hash.blk < blockCount m.length ∧ p.hash.w.length = 80 ∧ p.hash.t < 80

/-- The phase steps still to go before OUT. -/
def Pass.stepsLeft (m : ByteSeq) (p : Pass) : Nat :=
  let blocks := blockCount m.length - p.hash.blk
  match p.phase with
  | .init => passLength m.length
  | .load => 83 * blocks
  | .expand => 83 * blocks - 1
  | .round => 83 * blocks - 2 - p.hash.t
  | .feed => 83 * blocks - 82
  | .out => 0

/-- The accumulators that the rest of the pass leaves. -/
def Pass.outcome (m : ByteSeq) (p : Pass) : HashWords :=
  let x := p.hash
  let later := hashBlocks (pad m) (blockCount m.length - (x.blk + 1)) (x.blk + 1)
  match p.phase with
  | .init => hashBlocks (pad m) (blockCount m.length) 0 hInit
  | .load => hashBlocks (pad m) (blockCount m.length - x.blk) x.blk x.h
  | .expand => later (feedForward x.h (rounds 0 (expand 64 x.w) (loadWorking x.h)))
  | .round => later (feedForward x.h (rounds x.t (x.w.drop x.t) x.work))
  | .feed => later (feedForward x.h x.work)
  | .out => x.h

/-- What one phase step does to a pass on course. -/
structure Pass.Advances (m : ByteSeq) (p q : Pass) : Prop where
  onCourse : q.OnCourse m
  stepsLeft : q.stepsLeft m + 1 = p.stepsLeft m
  outcome : q.outcome m = p.outcome m

theorem Pass.stepsLeft_eq_zero_iff {m : ByteSeq} {p : Pass} (h : p.OnCourse m) :
    p.stepsLeft m = 0 ↔ p.phase = .out := by
  obtain ⟨ph, x⟩ := p
  cases ph <;> simp only [OnCourse] at h <;> simp [stepsLeft, passLength] <;> omega

theorem blockCount_pos (L : Nat) : 0 < blockCount L := Nat.succ_pos _

/-- While blocks remain, the next one is compressed first (R97). -/
theorem hashBlocks_of_lt {p : ByteSeq} {n blk : Nat} (h : blk < n) (a : HashWords) :
    hashBlocks p (n - blk) blk a = hashBlocks p (n - (blk + 1)) (blk + 1) (compress a (blockAt p blk)) := by
  rw [show n - blk = n - (blk + 1) + 1 by omega, hashBlocks_succ]

theorem rounds_drop_of_lt {w : List Word} {t : Nat} (h : t < w.length) (x : Working) :
    rounds t (w.drop t) x = rounds (t + 1) (w.drop (t + 1)) (roundStep t (w.getD t 0) x) := by
  rw [List.drop_eq_getElem_cons h, rounds, List.getD_eq_getElem _ _ h]

theorem advances_init (m : ByteSeq) (x : HashState) : Pass.Advances m ⟨.init, x⟩ (passStep m ⟨.init, x⟩) where
  onCourse := blockCount_pos _
  stepsLeft := by simp only [passStep, Pass.stepsLeft, passLength]; omega
  outcome := by simp only [passStep, Pass.outcome, Nat.sub_zero]

theorem advances_load {m : ByteSeq} {x : HashState} (h : x.blk < blockCount m.length) :
    Pass.Advances m ⟨.load, x⟩ (passStep m ⟨.load, x⟩) where
  onCourse := ⟨h, blockWords_length _⟩
  stepsLeft := by simp only [passStep, Pass.stepsLeft]; omega
  outcome := by simp only [passStep, Pass.outcome, hashBlocks_of_lt h, compress, schedule]

theorem advances_expand {m : ByteSeq} {x : HashState} (h : x.blk < blockCount m.length) (hw : x.w.length = 16) :
    Pass.Advances m ⟨.expand, x⟩ (passStep m ⟨.expand, x⟩) := by
  refine ⟨?_, ?_, ?_⟩ <;> simp only [passStep]
  · exact ⟨h, by simp only [expand_length, hw], Nat.succ_pos 79⟩
  · simp only [Pass.stepsLeft]; omega
  · simp only [Pass.outcome, List.drop_zero]

theorem advances_round {m : ByteSeq} {x : HashState} (h : x.blk < blockCount m.length) (hw : x.w.length = 80)
    (ht : x.t < 80) : Pass.Advances m ⟨.round, x⟩ (passStep m ⟨.round, x⟩) := by
  have hrest := rounds_drop_of_lt (hw ▸ ht) x.work
  by_cases hlast : x.t + 1 < 80
  · refine ⟨?_, ?_, ?_⟩ <;> simp only [passStep, hlast, if_true]
    · exact ⟨h, hw, hlast⟩
    · simp only [Pass.stepsLeft]; omega
    · simp only [Pass.outcome, hrest]
  · refine ⟨?_, ?_, ?_⟩ <;> simp only [passStep, hlast, if_false]
    · exact h
    · simp only [Pass.stepsLeft]; omega
    · simp only [Pass.outcome, hrest, List.drop_of_length_le (show x.w.length ≤ x.t + 1 by omega), rounds]

theorem advances_feed {m : ByteSeq} {x : HashState} (h : x.blk < blockCount m.length) :
    Pass.Advances m ⟨.feed, x⟩ (passStep m ⟨.feed, x⟩) := by
  by_cases hmore : x.blk + 1 < blockCount m.length
  · refine ⟨?_, ?_, ?_⟩ <;> simp only [passStep, hmore, if_true]
    · exact hmore
    · simp only [Pass.stepsLeft]; omega
    · simp only [Pass.outcome]
  · refine ⟨?_, ?_, ?_⟩ <;> simp only [passStep, hmore, if_false]
    · trivial
    · simp only [Pass.stepsLeft]; omega
    · simp only [Pass.outcome, show blockCount m.length - (x.blk + 1) = 0 by omega, hashBlocks_zero]

theorem passStep_advances {m : ByteSeq} {p : Pass} (h : p.OnCourse m) (hout : p.phase ≠ .out) :
    p.Advances m (passStep m p) := by
  obtain ⟨ph, x⟩ := p
  cases ph with
  | init => exact advances_init m x
  | load => exact advances_load h
  | expand => exact advances_expand h.1 h.2
  | round => exact advances_round h.1 h.2.1 h.2.2
  | feed => exact advances_feed h
  | out => exact absurd rfl hout

/-- A pass on course runs down its steps one by one and keeps its outcome. -/
theorem passRun_onCourse {m : ByteSeq} {p : Pass} (h : p.OnCourse m) {n : Nat} (hn : n ≤ p.stepsLeft m) :
    (passRun m n p).OnCourse m ∧ (passRun m n p).stepsLeft m + n = p.stepsLeft m ∧
      (passRun m n p).outcome m = p.outcome m := by
  induction n generalizing p with
  | zero => exact ⟨h, rfl, rfl⟩
  | succ n ih =>
    have hout : p.phase ≠ .out := fun he => by
      rw [(Pass.stepsLeft_eq_zero_iff h).mpr he] at hn
      omega
    obtain ⟨hcourse, hleft, houtcome⟩ := passStep_advances h hout
    obtain ⟨hcourse', hleft', houtcome'⟩ := ih hcourse (by omega)
    exact ⟨hcourse', by rw [passRun]; omega, houtcome'.trans houtcome⟩

theorem Pass.outcome_of_out {m : ByteSeq} {p : Pass} (h : p.phase = .out) : p.outcome m = p.hash.h := by
  rw [outcome, h]

end Sys2Proof.Machine

namespace Sys2Proof.Proofs

open Sys2Proof.Machine

/-- Settles O28, with `padZeros` for z; a length of at most 65536 bytes fits the field. -/
theorem paddingAppends : Obligations.PaddingAppends := by
  intro m
  refine ⟨padZeros m.length, padZeros_le _, padZeros_eq_mod _, padZeros_fills _, fun y => padZeros_unique, pad_eq m,
    fun hL => ⟨by omega, ?_⟩⟩
  rw [beValue_be64bytes, BitVec.toNat_ofNat, Nat.mod_eq_of_lt (by omega)]

/-- Settles O29: the length as a sum and as whole blocks; the boundaries are arithmetic on the block count. -/
theorem paddedMessageIsWholeBlocks : Obligations.PaddedMessageIsWholeBlocks := by
  intro m
  have hblocks : (pad m).length = 64 * ((m.length + 8) / 64 + 1) := pad_length m
  have hsum := pad_length_eq_add m
  have hzeros := padZeros_eq_mod m.length
  exact ⟨hblocks, by omega, by omega, by omega, by omega⟩

/-- Settles O30: the first sixteen words are the block's own, and each later one is grown by the recurrence. -/
theorem scheduleRecurrence : Obligations.ScheduleRecurrence := by
  intro x _
  refine ⟨schedule_length x, fun t ht => ?_, fun t hge hlt => ?_⟩
  · rw [schedule, expand_getD_of_lt _ (by simpa using ht), blockWords_getD x ht]
  · exact expand_getD_of_ge 64 (by simp) (by simpa using hge) (by simpa using hlt)

/-- Settles O32: the run is the working words after t rounds. -/
theorem compressRunsEightyRounds : Obligations.CompressRunsEightyRounds := by
  intro h x
  exact ⟨workingAfter h x, workingAfter_zero h x, fun _ ht => workingAfter_succ h x ht, compress_eq_workingAfter h x⟩

/-- Settles O33: the accumulators are the fold over the blocks, and the digest holds each of their bytes. -/
theorem digestIsTheAccumulators : Obligations.DigestIsTheAccumulators := by
  intro m
  refine ⟨hashBlocks (pad m) ((pad m).length / 64) 0 hInit, ?_, sha1_length m, digestWords_digestBytes _,
    fun j hj => ?_⟩
  · rw [hashBlocks_eq_foldl, List.range_eq_range']
    rfl
  · have hbytes := byteAt_digestBytes (hashBlocks (pad m) ((pad m).length / 64) 0 hInit) hj
    simpa only [sha1, byteAt_be32bytes _ hj] using hbytes

/-- Settles O35: INIT is on course with `passLength` steps left and with sha1's accumulators for its outcome. -/
theorem phasedPassComputesSha1 : Obligations.PhasedPassComputesSha1 := by
  intro m x
  have hrun := fun n => passRun_onCourse (m := m) (p := ⟨.init, x⟩) trivial (n := n)
  obtain ⟨hcourse, hleft, houtcome⟩ := hrun (passLength m.length) le_rfl
  have hinit : Pass.stepsLeft m ⟨.init, x⟩ = passLength m.length := rfl
  have hend := (Pass.stepsLeft_eq_zero_iff hcourse).mp (by omega)
  refine ⟨hend, ?_, fun n hn hout => ?_⟩
  · rw [Pass.outcome_of_out hend] at houtcome
    rw [passDigest, houtcome, sha1_eq_blockCount, Pass.outcome]
  · obtain ⟨hcourse', hleft', -⟩ := hrun n hn.le
    rw [(Pass.stepsLeft_eq_zero_iff hcourse').mpr hout] at hleft'
    omega

/-- Settles O11: it is the rule for SHA1 with both regions in bounds. -/
theorem sha1CommandResult : Obligations.Sha1CommandResult :=
  fun _ hsrc hdst => exec_sha1_of_fits hsrc hdst

/-- Settles O31: the bounds of each group decide the branches at 20, 40 and 60. -/
theorem roundFunctionsAndConstants : Obligations.RoundFunctionsAndConstants := by
  intro t b c d
  simp only [roundFunction, roundConstant]
  refine ⟨fun h => ?choose, fun h20 h => ?parity, fun h40 h => ?majority, fun h60 _ => ?parityAgain⟩
  case choose => simp only [show t < 20 by omega, if_true, fChoose, and_self]
  case parity => simp only [show ¬t < 20 by omega, show t < 40 by omega, if_true, if_false, fParity, and_self]
  case majority =>
    simp only [show ¬t < 20 by omega, show ¬t < 40 by omega, show t < 60 by omega, if_true, if_false, fMajority,
      and_self]
  case parityAgain =>
    simp only [show ¬t < 20 by omega, show ¬t < 40 by omega, show ¬t < 60 by omega, if_false, fParity, and_self]

/-- Settles O34: both digests are closed data, evaluated by the kernel. -/
theorem sha1OfTheSpecVectors : Obligations.Sha1OfTheSpecVectors := ⟨sha1_abc, sha1_nil⟩

end Sys2Proof.Proofs

end

section
/-! PROOFS. The statements of 42_hmac.md: the prepared key by the key's length, HMAC through the prepared key alone, the
end of a command whose regions are in bounds, and from these the obligations, each settled at the end. -/

namespace Sys2Proof.Machine

/-! ### The prepared key (R101) -/

theorem prepareKey_of_gt {key : ByteSeq} (h : 64 < key.length) :
    prepareKey key = sha1 key ++ List.replicate 44 0x00 := by
  rw [prepareKey, if_pos h, zeroPadRight, sha1_length, bytesOf]

theorem prepareKey_of_lt {key : ByteSeq} (h : key.length < 64) :
    prepareKey key = key ++ List.replicate (64 - key.length) 0x00 := by
  rw [prepareKey, if_neg h.not_gt, if_pos h, zeroPadRight, bytesOf]

theorem prepareKey_of_eq {key : ByteSeq} (h : key.length = 64) : prepareKey key = key := by
  rw [prepareKey, if_neg h.not_gt, if_neg h.not_lt]

/-- A long key and its digest are padded to the same bytes: the digest, being short, is not hashed again (R103). -/
theorem prepareKey_eq_prepareKey_sha1 {key : ByteSeq} (h : 64 < key.length) :
    prepareKey key = prepareKey (sha1 key) := by
  rw [prepareKey_of_gt h, prepareKey_of_lt (by simp), sha1_length]

/-- A short all-zero key only grows by more zero bytes; the empty key is the one with n = 0 (R102). -/
theorem prepareKey_replicate_zero {n : Nat} (h : n < 64) :
    prepareKey (List.replicate n 0x00) = List.replicate 64 0x00 := by
  rw [prepareKey_of_lt (by simpa using h), List.length_replicate, List.replicate_append_replicate,
    Nat.add_sub_cancel' h.le]

/-! ### HMAC (R105) -/

/-- HMAC reads the key only through the prepared key, so it cannot tell apart keys that prepare alike. -/
theorem hmac_congr {key key' : ByteSeq} (h : prepareKey key = prepareKey key') (msg : ByteSeq) :
    hmac key msg = hmac key' msg := by
  rw [hmac, hmac, h]

/-! ### The end of a command whose regions are in bounds -/

/-- With every region in bounds the checks pass (R48, R75). -/
theorem checkRegions_of_fits {c : Config} {rs : List Region} (h : ∀ r ∈ rs, r.addr + r.len ≤ c.dmemBytes)
    (k : ExecResult) : checkRegions c rs k = k := by
  rw [checkRegions_eq, if_pos (List.all_eq_true.mpr fun r hr => (inBounds_iff c r).mpr (h r hr))]

/-- A command whose `Exec` succeeds stores its output, writes its result registers and completes (R77). -/
theorem exec_of_evalCommand_ok {i : Instr} {s : State} {out : ByteSeq} {w : ResultWrites}
    (h : evalCommand i s.cfg s.operands s.dmem = .ok s.operands.dstAddr.toNat out w) :
    exec i s = .next (s.completed out (s.results.apply out.length w)) := by
  rw [exec_eq_finish, h]; rfl

/-- `Exec` of PREPARE_KEY with both regions in bounds (R108). -/
theorem evalCommand_prepareKey_of_fits {s : State} (hkey : s.fits s.operands.keyAddr s.operands.keyLen.toNat)
    (hdst : s.fits s.operands.dstAddr 64) :
    evalCommand .prepareKey s.cfg s.operands s.dmem = .ok s.operands.dstAddr.toNat (prepareKey s.keyBytes) {} :=
  checkRegions_of_fits (by simpa [keyRegion, dstRegion] using ⟨hkey, hdst⟩) _

/-- `Exec` of HMAC_SHA1 with its three regions in bounds (R109). -/
theorem evalCommand_hmacSha1_of_fits {s : State} (hkey : s.fits s.operands.keyAddr s.operands.keyLen.toNat)
    (hsrc : s.fits s.operands.srcAddr s.operands.srcLen.toNat) (hdst : s.fits s.operands.dstAddr 20) :
    evalCommand .hmacSha1 s.cfg s.operands s.dmem = .ok s.operands.dstAddr.toNat (hmac s.keyBytes s.srcBytes)
      { digest := some (digestWords (hmac s.keyBytes s.srcBytes)) } :=
  checkRegions_of_fits (by simpa [keyRegion, srcRegion, dstRegion] using ⟨hkey, hsrc, hdst⟩) _

end Sys2Proof.Machine

namespace Sys2Proof.Proofs

open Sys2Proof.Machine

/-- Settles O36: one equation of `prepareKey` for each case, and HMAC sees no more of a key than they give. -/
theorem preparedKeyCases : Obligations.PreparedKeyCases := by
  intro key
  have hempty : prepareKey [] = List.replicate 64 0x00 := prepareKey_replicate_zero (n := 0) (by decide)
  refine ⟨prepareKey_length key, prepareKey_of_gt, prepareKey_of_lt, prepareKey_of_eq, hempty,
    prepareKey_eq_prepareKey_sha1, fun n hn => ?_⟩
  have hzero : prepareKey (List.replicate n 0x00) = prepareKey [] := (prepareKey_replicate_zero hn).trans hempty.symm
  exact ⟨hzero, hmac_congr hzero⟩

/-- Settles O37: the formula is the definition, and a long key prepares as its digest does. -/
theorem hmacOfLongKey : Obligations.HmacOfLongKey := by
  intro key msg
  refine ⟨hmac_length key msg, ?_, fun h => hmac_congr (prepareKey_eq_prepareKey_sha1 h) msg⟩
  rw [hmac, outerPad, innerPad, xorBytes, xorBytes]

/-- Settles O12: `Exec` succeeds with 64 bytes and writes no result register but OUT_LEN. -/
theorem prepareKeyCommandResult : Obligations.PrepareKeyCommandResult := by
  intro s hkey hdst
  rw [exec_of_evalCommand_ok (evalCommand_prepareKey_of_fits hkey hdst), prepareKey_length]
  rfl

/-- Settles O13: `Exec` succeeds with 20 bytes and writes their words to the digest registers. -/
theorem hmacSha1CommandResult : Obligations.HmacSha1CommandResult := by
  intro s hkey hsrc hdst
  rw [exec_of_evalCommand_ok (evalCommand_hmacSha1_of_fits hkey hsrc hdst), hmac_length]
  rfl

end Sys2Proof.Proofs

end

section
/-! PROOFS. The statements of 43_base32.md: the alphabet, a text as alphabet bytes followed by padding, the encoder's
text and the decoder's bytes read off their bitstreams, and from these the obligations, each settled at the end. -/

namespace Sys2Proof.Machine

/-! ### The alphabet (R110) -/

theorem b32Value_isSome_iff (b : Byte) : (b32Value b).isSome = true ↔ inAlphabet b := by
  rw [b32Value]
  split
  case isTrue hletter => exact iff_of_true rfl (.inl hletter)
  case isFalse hletter =>
    split
    case isTrue hdigit => exact iff_of_true rfl (.inr hdigit)
    case isFalse hdigit => exact iff_of_false Bool.false_ne_true (not_or.mpr ⟨hletter, hdigit⟩)

theorem b32Value_b32Char {v : Nat} (h : v < 32) : b32Value (b32Char v) = some v := by
  by_cases h26 : v < 26
  · have hchar : (b32Char v).toNat = v + 0x41 := by
      rw [b32Char, if_pos h26, BitVec.toNat_ofNat]; omega
    rw [b32Value, hchar, if_pos (by omega), Nat.add_sub_cancel]
  · have hchar : (b32Char v).toNat = v + 0x18 := by
      rw [b32Char, if_neg h26, BitVec.toNat_ofNat]; omega
    rw [b32Value, hchar, if_neg (by omega), if_pos (by omega), Nat.add_sub_cancel]

theorem inAlphabet_b32Char {v : Nat} (h : v < 32) : inAlphabet (b32Char v) := by
  rw [← b32Value_isSome_iff, b32Value_b32Char h]; rfl

/-- The decoder's table on the alphabet: a letter's code is above every digit's. -/
theorem b32Value_getD_of_inAlphabet {b : Byte} (h : inAlphabet b) :
    (b32Value b).getD 0 = if 0x41 ≤ b.toNat then b.toNat - 0x41 else b.toNat - 0x18 := by
  rw [b32Value]
  rcases h with hletter | hdigit
  · rw [if_pos hletter, if_pos hletter.1]; rfl
  · rw [if_neg (by omega), if_pos hdigit, if_neg (by omega)]; rfl

theorem b32Value_getD_lt {b : Byte} (h : inAlphabet b) : (b32Value b).getD 0 < 2 ^ 5 := by
  rw [b32Value_getD_of_inAlphabet h]
  split <;> omega

theorem ne_padChar_of_inAlphabet {b : Byte} (h : inAlphabet b) : b ≠ padChar := by
  rintro rfl
  exact absurd h (by decide)

/-! ### A text: alphabet bytes, then padding (R114) -/

/-- The trailing run of padding (R114), in the library's words. -/
theorem padCount_eq_length_rtakeWhile (s : ByteSeq) : padCount s = (s.rtakeWhile (· == padChar)).length := by
  rw [padCount, List.rtakeWhile, List.length_reverse]

/-- The run of padding stops at the last byte of the alphabet. -/
theorem padCount_append {text : ByteSeq} (h : ∀ b ∈ text, inAlphabet b) (p : Nat) :
    padCount (text ++ List.replicate p padChar) = p := by
  have hstop : text.reverse.takeWhile (· == padChar) = [] := by
    rw [List.takeWhile_eq_nil_iff]
    intro hpos
    simpa using ne_padChar_of_inAlphabet (h _ (List.mem_reverse.mp (List.getElem_mem hpos)))
  rw [padCount, List.reverse_append, List.reverse_replicate, List.takeWhile_append_of_pos (by simp), hstop,
    List.append_nil, List.length_replicate]

theorem textCount_append {text : ByteSeq} (h : ∀ b ∈ text, inAlphabet b) (p : Nat) :
    textCount (text ++ List.replicate p padChar) = text.length := by
  rw [textCount, padCount_append h, List.length_append, List.length_replicate, Nat.add_sub_cancel]

/-- Every sequence is the bytes before its trailing run of padding, and that run. -/
theorem take_textCount_append (s : ByteSeq) :
    s.take (textCount s) ++ List.replicate (padCount s) padChar = s := by
  have hsplit := List.rdropWhile_append_rtakeWhile (p := (· == padChar)) (l := s)
  have hrun : s.rtakeWhile (· == padChar) = List.replicate (padCount s) padChar := by
    rw [padCount_eq_length_rtakeWhile]
    exact List.eq_replicate_length.mpr fun b hb => by simpa using List.mem_rtakeWhile_imp hb
  have hcount : textCount s = (s.rdropWhile (· == padChar)).length := by
    have hlength := congrArg List.length hsplit
    rw [List.length_append, ← padCount_eq_length_rtakeWhile] at hlength
    rw [textCount]
    omega
  have htake : s.take (textCount s) = s.rdropWhile (· == padChar) :=
    (congrArg (List.take (textCount s)) hsplit).symm.trans (List.take_left' hcount.symm)
  rw [htake, ← hrun, hsplit]

/-- (V1) to (V4) of R114, read off the two parts of the text. -/
theorem b32Valid_append {text : ByteSeq} (h : ∀ b ∈ text, inAlphabet b) (p : Nat) :
    b32Valid (text ++ List.replicate p padChar) = true ↔ (text.length + p) % 8 = 0 ∧
      (text.length % 8 = 0 ∨ text.length % 8 = 2 ∨ text.length % 8 = 4 ∨ text.length % 8 = 5 ∨
        text.length % 8 = 7) ∧
      p = (8 - text.length % 8) % 8 := by
  have hall : text.all (fun b => (b32Value b).isSome) = true :=
    List.all_eq_true.mpr fun b hb => (b32Value_isSome_iff b).mpr (h b hb)
  simp [b32Valid, textCount_append h, padCount_append h, hall, and_assoc, -List.all_eq_true]

/-- A valid sequence is alphabet bytes followed by padding (V2). -/
theorem exists_text_of_b32Valid {s : ByteSeq} (h : b32Valid s = true) :
    ∃ text p, (∀ b ∈ text, inAlphabet b) ∧ s = text ++ List.replicate p padChar := by
  refine ⟨s.take (textCount s), padCount s, fun b hb => ?_, (take_textCount_append s).symm⟩
  simp only [b32Valid, Bool.and_eq_true, List.all_eq_true] at h
  obtain ⟨⟨⟨-, halphabet⟩, -⟩, -⟩ := h
  exact (b32Value_isSome_iff b).mp (halphabet b hb)

/-! ### Groups and streams undo each other (R111) -/

/-- The byte that a group's value stands for. -/
theorem byteAt_map (f : Nat → Byte) {values : List Nat} {j : Nat} (hj : j < values.length) :
    byteAt (values.map f) j = f (values.getD j 0) := by
  rw [byteAt, List.getD_eq_getElem _ _ (by simpa using hj), List.getElem_map, List.getD_eq_getElem _ _ hj]

theorem groupValues_lt {k n v : Nat} {bits : List Bool} (h : v ∈ groupValues k n bits) : v < 2 ^ k := by
  induction n generalizing bits with
  | zero => simp [groupValues] at h
  | succ n ih =>
    rcases List.mem_cons.mp h with rfl | hrest
    · exact (bitsValue_lt _).trans_le (Nat.pow_le_pow_right (by decide) (List.length_take_le _ _))
    · exact ih hrest

theorem bitsOf_succ (k v : Nat) : bitsOf (k + 1) v = bitsOf k (v / 2) ++ [v.testBit 0] := by
  rw [bitsOf, bitsOf, List.range_succ, List.map_append, List.map_singleton, Nat.add_sub_cancel, Nat.sub_self]
  congr 1
  refine List.map_congr_left fun i hi => ?_
  rw [Nat.testBit_div_two, show k - 1 - i + 1 = k - i by rw [List.mem_range] at hi; omega]

/-- The bits of the number that a stream spells are the stream. -/
theorem bitsOf_bitsValue (bits : List Bool) : bitsOf bits.length (bitsValue bits) = bits := by
  induction bits using List.reverseRecOn with
  | nil => rfl
  | append_singleton bits b ih =>
    have hval : bitsValue (bits ++ [b]) = 2 * bitsValue bits + b.toNat := by
      rw [bitsValue, List.foldl_append]; rfl
    have hdiv : (2 * bitsValue bits + b.toNat) / 2 = bitsValue bits := by have := b.toNat_lt; omega
    have hlow : (2 * bitsValue bits + b.toNat).testBit 0 = b := by cases b <;> simp [Nat.testBit_zero]
    rw [List.length_append, List.length_singleton, bitsOf_succ, hval, hdiv, hlow, ih]

/-- Cutting a stream into groups of k bits loses none of it. -/
theorem flatMap_bitsOf_groupValues {k n : Nat} {bits : List Bool} (h : bits.length = k * n) :
    (groupValues k n bits).flatMap (bitsOf k) = bits := by
  induction n generalizing bits with
  | zero => exact (List.eq_nil_of_length_eq_zero h).symm
  | succ n ih =>
    have htake : (bits.take k).length = k := List.length_take_of_le (h ▸ Nat.le_mul_of_pos_right k n.succ_pos)
    have hhead := bitsOf_bitsValue (bits.take k)
    rw [htake] at hhead
    rw [groupValues, List.flatMap_cons, hhead, ih (by rw [List.length_drop, h, Nat.mul_succ, Nat.add_sub_cancel]),
      List.take_append_drop]

/-- The first groups of a stream built from values of k bits are those values, whatever follows them. -/
theorem groupValues_flatMap_bitsOf {α : Type} {k : Nat} {f : α → Nat} {l : List α} (hf : ∀ a ∈ l, f a < 2 ^ k)
    (rest : List Bool) : groupValues k l.length ((l.flatMap fun a => bitsOf k (f a)) ++ rest) = l.map f := by
  induction l with
  | nil => rfl
  | cons a l ih =>
    obtain ⟨ha, hl⟩ := List.forall_mem_cons.mp hf
    rw [List.length_cons, groupValues, List.flatMap_cons, List.append_assoc, List.take_left' (bitsOf_length _ _),
      List.drop_left' (bitsOf_length _ _), bitsValue_bitsOf, Nat.mod_eq_of_lt ha, ih hl, List.map_cons]

/-! ### The encoder (R112) -/

/-- The bitstream of x with its zero bits on the right. -/
def encodedBits (x : ByteSeq) : List Bool :=
  bitstream x ++ List.replicate (5 * quintetCount x.length - 8 * x.length) false

/-- The characters of the encoding, without the padding. -/
def encodedText (x : ByteSeq) : ByteSeq := (groupValues 5 (quintetCount x.length) (encodedBits x)).map b32Char

theorem b32Encode_eq (x : ByteSeq) :
    b32Encode x = encodedText x ++ List.replicate ((8 - quintetCount x.length % 8) % 8) padChar := rfl

@[simp] theorem encodedText_length (x : ByteSeq) : (encodedText x).length = quintetCount x.length := by
  simp [encodedText]

theorem encodedText_inAlphabet (x : ByteSeq) : ∀ b ∈ encodedText x, inAlphabet b := by
  intro b hb
  obtain ⟨v, hv, rfl⟩ := List.mem_map.mp hb
  exact inAlphabet_b32Char (groupValues_lt hv)

@[simp] theorem bitstream_length (x : ByteSeq) : (bitstream x).length = 8 * x.length :=
  valueStream_length 8 BitVec.toNat x

theorem bitsValue_bitstream (x : ByteSeq) : bitsValue (bitstream x) = beValue x :=
  valueStream_value 8 BitVec.toNat x fun b _ => b.isLt

@[simp] theorem encodedBits_length (x : ByteSeq) : (encodedBits x).length = 5 * quintetCount x.length := by
  simp only [encodedBits, List.length_append, bitstream_length, List.length_replicate, quintetCount]
  omega

theorem bitsValue_encodedBits (x : ByteSeq) :
    bitsValue (encodedBits x) = beValue x * 2 ^ (5 * quintetCount x.length - 8 * x.length) := by
  rw [encodedBits, bitsValue_append, bitsValue_bitstream, bitsValue_zeros, List.length_replicate, Nat.add_zero]

/-- Quintet j of the stream, as a digit in base 32 of the number that the stream spells. -/
theorem byteAt_b32Encode (x : ByteSeq) {j : Nat} (hj : j < quintetCount x.length) :
    byteAt (b32Encode x) j = b32Char (beValue x * 2 ^ (5 * quintetCount x.length - 8 * x.length)
      / 32 ^ (quintetCount x.length - 1 - j) % 32) := by
  have hgroup := groupValues_getD 5 _ j (encodedBits x) hj (by rw [encodedBits_length]; omega)
  have hbase : 2 ^ (5 * quintetCount x.length - 5 * (j + 1)) = 32 ^ (quintetCount x.length - 1 - j) := by
    rw [← Nat.mul_sub, Nat.pow_mul, Nat.sub_sub, Nat.add_comm 1 j]
  rw [bitsValue_encodedBits, encodedBits_length, hbase] at hgroup
  rw [byteAt, b32Encode_eq, List.getD_append _ _ _ _ (by simpa using hj), ← byteAt, encodedText,
    byteAt_map _ (by simpa using hj)]
  exact congrArg b32Char hgroup

/-! ### The decoder (R115) -/

/-- The values of a text's characters, as a bitstream. -/
def textBits (text : ByteSeq) : List Bool := text.flatMap fun b => bitsOf 5 ((b32Value b).getD 0)

@[simp] theorem textBits_length (text : ByteSeq) : (textBits text).length = 5 * text.length :=
  valueStream_length 5 _ text

theorem bitsValue_textBits {text : ByteSeq} (h : ∀ b ∈ text, inAlphabet b) :
    bitsValue (textBits text) = text32Value text := by
  rw [textBits, valueStream_value 5 _ text fun b hb => b32Value_getD_lt (h b hb), text32Value]
  exact List.foldl_ext _ _ _ fun v b hb => congrArg (32 * v + ·) (b32Value_getD_of_inAlphabet (h b hb))

/-- The decoder reads the text alone; the padding only says where it ends. -/
theorem b32Decode_append {text : ByteSeq} (h : ∀ b ∈ text, inAlphabet b) (p : Nat) :
    b32Decode (text ++ List.replicate p padChar) =
      (groupValues 8 (5 * text.length / 8) (textBits text)).map (BitVec.ofNat 8) := by
  rw [b32Decode, textCount_append h, List.take_left, textBits]

/-- Octet j of the stream, as a digit in base 256 of the number that the text spells without its last bits (R117). -/
theorem byteAt_b32Decode_append {text : ByteSeq} (h : ∀ b ∈ text, inAlphabet b) (p : Nat) {m j : Nat}
    (hm : m = 5 * text.length / 8) (hj : j < m) :
    byteAt (b32Decode (text ++ List.replicate p padChar)) j = BitVec.ofNat 8
      (text32Value text / 2 ^ (5 * text.length - 8 * m) / 256 ^ (m - 1 - j) % 256) := by
  have hgroup := groupValues_getD 8 m j (textBits text) hj (by rw [textBits_length]; omega)
  have hbase : 2 ^ (5 * text.length - 8 * (j + 1)) = 2 ^ (5 * text.length - 8 * m) * 256 ^ (m - 1 - j) := by
    rw [show 256 = 2 ^ 8 from rfl, ← Nat.pow_mul, ← Nat.pow_add]
    congr 1
    omega
  rw [bitsValue_textBits h, textBits_length, hbase, ← Nat.div_div_eq_div_mul] at hgroup
  rw [b32Decode_append h, ← hm, byteAt_map _ (by simpa using hj)]
  exact congrArg (BitVec.ofNat 8) hgroup

/-! ### Decoding an encoding (R118) -/

/-- The decoder sees the very stream that the encoder cut into quintets. -/
theorem textBits_encodedText (x : ByteSeq) : textBits (encodedText x) = encodedBits x := by
  have hvalue : ∀ v ∈ groupValues 5 (quintetCount x.length) (encodedBits x),
      bitsOf 5 ((b32Value (b32Char v)).getD 0) = bitsOf 5 v := fun v hv => by
    rw [b32Value_b32Char (groupValues_lt hv), Option.getD_some]
  rw [textBits, encodedText, List.flatMap_map, List.flatMap_congr hvalue,
    flatMap_bitsOf_groupValues (encodedBits_length x)]

theorem b32Valid_b32Encode (x : ByteSeq) : b32Valid (b32Encode x) = true := by
  refine (b32Valid_append (encodedText_inAlphabet x) _).mpr ?_
  rw [encodedText_length, quintetCount]
  exact ⟨by omega, by omega, rfl⟩

theorem b32Decode_b32Encode (x : ByteSeq) : b32Decode (b32Encode x) = x := by
  have hcount : 5 * quintetCount x.length / 8 = x.length := by rw [quintetCount]; omega
  have hbytes : groupValues 8 x.length (encodedBits x) = x.map BitVec.toNat :=
    groupValues_flatMap_bitsOf (fun b _ => b.isLt) _
  rw [b32Encode_eq, b32Decode_append (encodedText_inAlphabet x), encodedText_length, hcount, textBits_encodedText,
    hbytes, List.map_map]
  simp [Function.comp_def]

/-! ### The commands with their source in bounds -/

/-- `Exec` of B32_ENCODE with both regions in bounds (R120). -/
theorem evalCommand_b32Encode_of_fits {s : State} (hsrc : s.fits s.operands.srcAddr s.operands.srcLen.toNat)
    (hdst : s.fits s.operands.dstAddr (b32TextLength s.operands.srcLen.toNat)) :
    evalCommand .b32Encode s.cfg s.operands s.dmem = .ok s.operands.dstAddr.toNat (b32Encode s.srcBytes) {} :=
  checkRegions_of_fits (by simpa [srcRegion, dstRegion] using ⟨hsrc, hdst⟩) _

/-- With its source in bounds B32_DECODE goes on to the format, before its output region (R74, R121). -/
theorem evalCommand_b32Decode_of_src_fits {s : State} (hsrc : s.fits s.operands.srcAddr s.operands.srcLen.toNat) :
    evalCommand .b32Decode s.cfg s.operands s.dmem = if b32Valid s.srcBytes then
      checkRegions s.cfg [dstRegion s.operands (b32Decode s.srcBytes).length]
        (.ok s.operands.dstAddr.toNat (b32Decode s.srcBytes) {})
    else .err .format :=
  checkRegions_of_fits (by simpa [srcRegion] using hsrc) _

end Sys2Proof.Machine

namespace Sys2Proof.Proofs

open Sys2Proof.Machine

/-- Settles O38: the encoding is a valid text, and its stream begins with the octets of x. -/
theorem base32RoundTrip : Obligations.Base32RoundTrip := fun x => ⟨b32Valid_b32Encode x, b32Decode_b32Encode x⟩

/-- Settles O39, with `encodedText` for the text; the counts are arithmetic on ceil(8L / 5). -/
theorem base32EncodedForm : Obligations.Base32EncodedForm := by
  intro x k
  have hlength : (b32Encode x).length = 8 * ((x.length + 4) / 5) := b32Encode_length x
  refine ⟨hlength, rfl, encodedText x, _, b32Encode_eq x, encodedText_inAlphabet x, ?_⟩
  rw [hlength, encodedText_length, quintetCount]
  refine ⟨?_, ?_, ?_, ?_, ?_⟩ <;> omega

/-- Settles O40: the character of each digit, with the sums of `b32Char` the other way round. -/
theorem base32EncodeTakesQuintets : Obligations.Base32EncodeTakesQuintets := by
  rintro x j _ _ rfl hj rfl
  rw [Nat.add_comm 0x41, Nat.add_comm 0x18]
  exact byteAt_b32Encode x hj

/-- Settles O41: a valid text splits into its two parts, and on the parts validity is (V1), (V3) and (V4). -/
theorem base32ValidInputs : Obligations.Base32ValidInputs := by
  intro s
  constructor
  · intro hvalid
    obtain ⟨text, p, htext, rfl⟩ := exists_text_of_b32Valid hvalid
    obtain ⟨hlength, hresidue, hp⟩ := (b32Valid_append htext p).mp hvalid
    exact ⟨text, p, rfl, by simpa using hlength, htext, hresidue, hp⟩
  · rintro ⟨text, p, rfl, hlength, htext, hresidue, hp⟩
    exact (b32Valid_append htext p).mpr ⟨by simpa using hlength, hresidue, hp⟩

/-- Settles O42: the bytes of the two parts of the text, and the lengths are arithmetic on floor(5n / 8). -/
theorem base32DecodedLength : Obligations.Base32DecodedLength := by
  intro s k hvalid
  obtain ⟨text, p, htext, rfl⟩ := exists_text_of_b32Valid hvalid
  refine ⟨⟨text, p, _, rfl, htext, textCount_append htext p, rfl, fun j => byteAt_b32Decode_append htext p rfl⟩,
    b32Decode_length _, ?_⟩
  rw [b32Decode_length]
  refine ⟨?_, ?_, ?_, ?_, ?_, rfl⟩ <;> omega

/-- Settles O14: `Exec` succeeds with the text and writes no result register but OUT_LEN. -/
theorem base32EncodeCommandResult : Obligations.Base32EncodeCommandResult := by
  intro s hsrc hdst
  rw [exec_of_evalCommand_ok (evalCommand_b32Encode_of_fits hsrc hdst), b32Encode_length, State.srcBytes,
    memRead_length]
  rfl

/-- Settles O15: the text passes the format check and the output region fits, so `Exec` succeeds with the bytes. -/
theorem base32DecodeCommandResult : Obligations.Base32DecodeCommandResult := by
  intro s hsrc hvalid hdst
  have heval := evalCommand_b32Decode_of_src_fits hsrc
  rw [if_pos hvalid, checkRegions_of_fits (by simpa [dstRegion] using hdst)] at heval
  rw [exec_of_evalCommand_ok heval, b32Decode_length]
  rfl

/-- Settles O20: the format check fails before the output region is looked at. -/
theorem invalidBase32InputFails : Obligations.InvalidBase32InputFails := by
  intro s hsrc hinvalid
  refine exec_of_evalCommand_err (e := .format) ?_
  rw [evalCommand_b32Decode_of_src_fits hsrc, hinvalid, if_neg Bool.false_ne_true]

end Sys2Proof.Proofs

end

section
/-! PROOFS. The statements of 44_hotp.md: the four bytes at the truncation offset, the decimal digits of a code, the
bytes of the counter, the commands by their digit count, and from these the obligations, each settled at the end. -/

namespace Sys2Proof.Machine

/-! ### The truncated value (R125) -/

theorem take_drop_succ {s : ByteSeq} {o : Nat} (h : o < s.length) (n : Nat) :
    (s.drop o).take (n + 1) = byteAt s o :: (s.drop (o + 1)).take n := by
  rw [List.drop_eq_getElem_cons h, List.take_succ_cons, byteAt, List.getD_eq_getElem _ _ h]

theorem take_drop_four {s : ByteSeq} {o : Nat} (h : o + 4 ≤ s.length) :
    (s.drop o).take 4 = [byteAt s o, byteAt s (o + 1), byteAt s (o + 2), byteAt s (o + 3)] := by
  rw [take_drop_succ (by omega), take_drop_succ (by omega), take_drop_succ (by omega), take_drop_succ (by omega),
    List.take_zero]

/-- Masking bit 7 of the first of four bytes drops bit 31 of the number they spell. -/
theorem truncatedValue_eq_beValue_mod {hs : ByteSeq} (h : hs.length = 20) :
    truncatedValue hs = beValue ((hs.drop (truncationOffset hs)).take 4) % 2 ^ 31 := by
  have hoffset := truncationOffset_lt hs
  have h1 := (byteAt hs (truncationOffset hs + 1)).isLt
  have h2 := (byteAt hs (truncationOffset hs + 2)).isLt
  have h3 := (byteAt hs (truncationOffset hs + 3)).isLt
  rw [take_drop_four (by omega)]
  simp only [truncatedValue, masked_toNat, beValue, List.foldl_cons, List.foldl_nil]
  omega

/-- Ten digits hold every 31-bit value (R127). -/
theorem codeValue_ten (hs : ByteSeq) : codeValue hs 10 = truncatedValue hs :=
  Nat.mod_eq_of_lt ((truncatedValue_lt hs).trans (by decide))

/-! ### The rendered code (R128) -/

/-- The last digit is d mod 10, and the digits before it are those of d / 10. -/
theorem renderCode_succ (d n : Nat) :
    renderCode d (n + 1) = renderCode (d / 10) n ++ [BitVec.ofNat 8 (0x30 + d % 10)] := by
  rw [renderCode, renderCode, List.range_succ, List.map_append, List.map_singleton, Nat.add_sub_cancel, Nat.sub_self,
    pow_zero, Nat.div_one]
  congr 1
  refine List.map_congr_left fun i hi => ?_
  rw [Nat.div_div_eq_div_mul, ← pow_succ', show n - 1 - i + 1 = n - i by rw [List.mem_range] at hi; omega]

theorem digitByte_toNat (v : Nat) : (BitVec.ofNat 8 (0x30 + v % 10)).toNat = 0x30 + v % 10 := by
  rw [BitVec.toNat_ofNat]
  omega

theorem renderCode_isDigit {d digits : Nat} {b : Byte} (h : b ∈ renderCode d digits) :
    0x30 ≤ b.toNat ∧ b.toNat ≤ 0x39 := by
  obtain ⟨i, -, rfl⟩ := List.mem_map.mp h
  rw [digitByte_toNat]
  omega

/-- Only the digits past the count are lost. -/
theorem decimalValue_renderCode (d digits : Nat) : decimalValue (renderCode d digits) = d % 10 ^ digits := by
  induction digits generalizing d with
  | zero => exact (Nat.mod_one d).symm
  | succ n ih =>
    have hlast : decimalValue (renderCode d (n + 1)) = 10 * decimalValue (renderCode (d / 10) n) + d % 10 := by
      rw [renderCode_succ, decimalValue, List.foldl_append, List.foldl_cons, List.foldl_nil, digitByte_toNat,
        Nat.add_sub_cancel_left, decimalValue]
    rw [hlast, ih, pow_succ', Nat.mod_mul, Nat.add_comm]

/-! ### The counter's bytes (R122) -/

theorem counter_toNat (r : Operands) :
    (counter r).toNat = r.counterHi.toNat * 2 ^ 32 + r.counterLo.toNat := by
  have hhi := r.counterHi.isLt
  have hlo := r.counterLo.isLt
  rw [counter, BitVec.toNat_ofNat]
  omega

theorem be32bytes_eq_extractLsb' (w : Word) : be32bytes w =
    [w.extractLsb' 24 8, w.extractLsb' 16 8, w.extractLsb' 8 8, w.extractLsb' 0 8] := by
  simp only [be32bytes, byteOf_eq_extractLsb']

/-- A 64-bit number is its two halves, each big-endian, the high half first. -/
theorem be64bytes_eq_append {v : BitVec 64} {hi lo : Word} (h : v.toNat = hi.toNat * 2 ^ 32 + lo.toNat) :
    be64bytes v = be32bytes hi ++ be32bytes lo := by
  have hlo := lo.isLt
  have hhigh : ∀ k, byteOf v.toNat (k + 4) = byteOf hi.toNat k := fun k => by
    rw [byteOf, byteOf, h, Nat.mul_add, Nat.add_comm (8 * k), pow_add, ← Nat.div_div_eq_div_mul]
    congr 2
    omega
  have hlow : ∀ k < 4, byteOf v.toNat k = byteOf lo.toNat k := fun k hk => by
    apply BitVec.eq_of_toNat_eq
    rw [byteOf_toNat, byteOf_toNat, h]
    interval_cases k <;> omega
  calc be64bytes v = [byteOf v.toNat 7, byteOf v.toNat 6, byteOf v.toNat 5, byteOf v.toNat 4,
        byteOf v.toNat 3, byteOf v.toNat 2, byteOf v.toNat 1, byteOf v.toNat 0] := rfl
    _ = be32bytes hi ++ be32bytes lo := by
      rw [hhigh 3, hhigh 2, hhigh 1, hhigh 0, hlow 3 (by decide), hlow 2 (by decide), hlow 1 (by decide),
        hlow 0 (by decide)]
      rfl

/-! ### The commands (R126, R131, R132) -/

theorem checkDigits_of_outOfRange {digits : Nat} (h : digits = 0 ∨ 10 < digits) (k : ExecResult) :
    checkDigits digits k = .err .range := by
  rw [checkDigits_eq, if_neg (by omega)]

/-- `Exec` of HOTP_TRUNCATE with its digit count in range and both regions in bounds (R131). -/
theorem evalCommand_hotpTruncate_of_fits {s : State} {digits : Nat} (h1 : 1 ≤ digits) (h10 : digits ≤ 10)
    (hsrc : s.fits s.operands.srcAddr 20) (hdst : s.fits s.operands.dstAddr digits) :
    evalCommand (.hotpTruncate digits) s.cfg s.operands s.dmem = .ok s.operands.dstAddr.toNat
      (renderCode (codeValue s.srcDigest digits) digits) (truncationWrites s.srcDigest digits) :=
  (checkDigits_of_inRange h1 h10 _).trans
    (checkRegions_of_fits (by simpa [srcDigestRegion, dstRegion] using ⟨hsrc, hdst⟩) _)

/-- `Exec` of HOTP with its digit count in range and both regions in bounds (R132). -/
theorem evalCommand_hotp_of_fits {s : State} {digits : Nat} (h1 : 1 ≤ digits) (h10 : digits ≤ 10)
    (hkey : s.fits s.operands.keyAddr s.operands.keyLen.toNat) (hdst : s.fits s.operands.dstAddr digits) :
    evalCommand (.hotp digits) s.cfg s.operands s.dmem = .ok s.operands.dstAddr.toNat
      (renderCode (codeValue (hotpHmac s.keyBytes (counter s.operands)) digits) digits)
      { truncationWrites (hotpHmac s.keyBytes (counter s.operands)) digits with
        digest := some (digestWords (hotpHmac s.keyBytes (counter s.operands))) } :=
  (checkDigits_of_inRange h1 h10 _).trans
    (checkRegions_of_fits (by simpa [keyRegion, dstRegion] using ⟨hkey, hdst⟩) _)

end Sys2Proof.Machine

namespace Sys2Proof.Proofs

open Sys2Proof.Machine

/-- Settles O43: the four bytes start at most at byte 15, and the mask is a remainder modulo 2^31. -/
theorem truncationAndCode : Obligations.TruncationAndCode := by
  intro hs digits hlength
  have hoffset := truncationOffset_lt hs
  exact ⟨truncationOffset_eq hs, by omega, truncatedValue_eq_beValue_mod hlength, truncatedValue_lt hs, rfl,
    codeValue_le hs digits, Nat.mod_lt _ (by positivity), codeValue_ten hs⟩

/-- Settles O44: the digits spell d modulo 10^digits, which is d. -/
theorem renderedCodeSpellsIt : Obligations.RenderedCodeSpellsIt := by
  intro d digits h
  exact ⟨renderCode_length d digits, fun _ => renderCode_isDigit,
    (decimalValue_renderCode d digits).trans (Nat.mod_eq_of_lt h)⟩

/-- Settles O45: the counter's halves are the two registers. -/
theorem counterPacking : Obligations.CounterPacking := by
  intro r
  refine ⟨counter_toNat r, ?_⟩
  rw [be64bytes_eq_append (counter_toNat r), be32bytes_eq_extractLsb', be32bytes_eq_extractLsb']
  rfl

/-- Settles O16: `Exec` succeeds with the code of the digest at SRC_ADDR and leaves DIGEST0 to DIGEST4. -/
theorem hotpTruncateCommandResult : Obligations.HotpTruncateCommandResult := by
  intro s digits h1 h10 hsrc hdst
  rw [exec_of_evalCommand_ok (evalCommand_hotpTruncate_of_fits h1 h10 hsrc hdst), renderCode_length]
  rfl

/-- Settles O17: `Exec` succeeds with the code of the HMAC over the packed counter and writes its words to the digest
registers. -/
theorem hotpCommandResult : Obligations.HotpCommandResult := by
  rintro s digits _ h1 h10 hkey hdst rfl
  rw [exec_of_evalCommand_ok (evalCommand_hotp_of_fits h1 h10 hkey hdst), renderCode_length]
  rfl

/-- Settles O19: the digit count is checked before any region. -/
theorem digitCountOutOfRangeFails : Obligations.DigitCountOutOfRangeFails := fun _ _ h =>
  ⟨exec_of_evalCommand_err (e := .range) (checkDigits_of_outOfRange h _),
    exec_of_evalCommand_err (e := .range) (checkDigits_of_outOfRange h _)⟩

end Sys2Proof.Proofs

end

section
/-! PROOFS. The statements of 60_exceptions.md: the code and the frame of a completion, the level of irq, the writes of
CTRL, STATUS and CMD at the host port, and from these the obligations, each settled at the end. -/

namespace Sys2Proof.Machine

/-! ### The completion record (R133, R139) -/

/-- The errors a command ends with have a code that some rule produces (R136). -/
theorem toCode_produced {e : ErrorKind} (h : e.fromExec ∨ e = .illegalCmd) :
    e.toCode = 1 ∨ e.toCode = 2 ∨ e.toCode = 4 ∨ e.toCode = 5 := by
  rcases h with (rfl | rfl | rfl) | rfl <;> decide

/-! ### The level of irq (R145) -/

theorem irq_eq_true_iff (s : State) : irq s = true ↔ s.irqEn = true ∧ s.done = true :=
  Bool.and_eq_true_iff

theorem irq_of_done {s : State} (h : s.done = true) : irq s = s.irqEn := by
  rw [irq, h, Bool.and_true]

theorem irq_of_not_done {s : State} (h : s.done = false) : irq s = false := by
  rw [irq, h, Bool.and_false]

/-- A malformed or refused transaction writes neither IRQ_EN nor DONE (R46, R47). -/
theorem irq_hostStep_of_busError {x : Transaction} {s : State} (h : (hostStep x s).response = some .busError) :
    irq (hostStep x s) = irq s := by
  have heffect := hostStep_effect x s
  generalize hostStep x s = t at h heffect
  cases heffect with
  | answered | refused => rfl
  | operandsWritten | softReset | irqEnWritten | statusWritten | accepted | dmemWritten => cases h

/-! ### The writes of CTRL, STATUS and CMD -/

theorem hostStep_write_ctrl (v : Word) (s : State) :
    hostStep (.write 0x0C .word v) s = respond .ok (writeCtrl v s) :=
  hostStep_write_reg .ctrl v s (by simp [writeLocked])

theorem hostStep_write_status (v : Word) (s : State) :
    hostStep (.write 0x10 .word v) s = respond .ok (writeStatus v s) :=
  hostStep_write_reg .status v s (by simp [writeLocked])

theorem hostStep_write_cmd {s : State} (hidle : s.busy = false) (v : Word) :
    hostStep (.write 0x14 .word v) s = respond .ok (accept v s) :=
  hostStep_write_reg .cmd v s (by simp [hidle])

theorem writeCtrl_of_softReset {v : Word} (hv : v[1] = true) (s : State) : writeCtrl v s = resetRegisters s :=
  if_pos hv

theorem writeCtrl_of_not_softReset {v : Word} (hv : v[1] = false) (s : State) :
    writeCtrl v s = { s with irqEn := v[0] } :=
  if_neg (by simp [hv])

/-- A one to clear a bit, a zero to leave it (R25). -/
theorem writeStatus_eq_ite (v : Word) (s : State) : writeStatus v s = { s with
    done := if v[1] then false else s.done
    accessErr := if v[2] then false else s.accessErr } := by
  rw [writeStatus]
  congr 1
  · cases v[1] <;> simp
  · cases v[2] <;> simp

theorem writeStatus_done_of_acknowledge {v : Word} (hv : v[1] = true) (s : State) :
    (writeStatus v s).done = false := by
  rw [writeStatus_done, hv, Bool.not_true, Bool.and_false]

/-- The four fields of STATUS fit in eight bits (R25). -/
theorem statusWord_toNat (s : State) : (statusWord s).toNat
    = s.errCode.toNat * 16 + s.accessErr.toNat * 4 + s.done.toNat * 2 + s.busy.toNat := by
  have := s.errCode.isLt
  have := s.accessErr.toNat_le
  have := s.done.toNat_le
  have := s.busy.toNat_le
  rw [statusWord, BitVec.toNat_ofNat, Nat.mod_eq_of_lt (by omega)]

end Sys2Proof.Machine

namespace Sys2Proof.Proofs

open Sys2Proof.Machine

/-- Settles O22: while BUSY = 1 the turn ends with an error's code or with 0, and neither end writes the fields named. -/
theorem completionRecordAndFrame : Obligations.CompletionRecordAndFrame := by
  intro s hbusy
  rcases engineTurn_cases s with ⟨hidle, -⟩ | ⟨-, e, hkind, hturn⟩ | ⟨-, i, out, w, -, -, -, -, hturn⟩
  · exact nomatch hbusy.symm.trans hidle
  · exact ⟨_, hturn, rfl, rfl, .inr (toCode_produced hkind), rfl, rfl, rfl, rfl, rfl, rfl, rfl⟩
  · exact ⟨_, hturn, rfl, rfl, .inl rfl, rfl, rfl, rfl, rfl, rfl, rfl, rfl⟩

/-- Settles O54: a completion sets DONE and keeps IRQ_EN, and every way to lower irq clears DONE. -/
theorem interruptLevel : Obligations.InterruptLevel := by
  intro s v a n draw
  refine ⟨irq_eq_true_iff s, fun hbusy => ?completion, fun hv => ?irqEnWritten, fun hv => ⟨?softReset, ?acknowledge⟩,
    fun hidle => ?acceptance, irq_of_not_done rfl, irq_hostStep_of_busError, irq_hostStep_of_busError⟩
  case completion =>
    obtain ⟨t, hturn, -, hdone, -, -, hirqEn, -⟩ := completionRecordAndFrame s hbusy
    exact ⟨t, hturn, (irq_of_done hdone).trans hirqEn⟩
  case irqEnWritten => rw [hostStep_write_ctrl, writeCtrl_of_not_softReset hv]; rfl
  case softReset => rw [hostStep_write_ctrl, writeCtrl_of_softReset hv]; rfl
  case acknowledge =>
    rw [hostStep_write_status]
    exact irq_of_not_done (writeStatus_done_of_acknowledge hv s)
  case acceptance =>
    rw [hostStep_write_cmd hidle]
    exact irq_of_not_done rfl

/-- Settles O49: STATUS is not locked, so its write is `writeStatus`; acceptance and both resets clear ERR_CODE. -/
theorem statusReadAndAcknowledge : Obligations.StatusReadAndAcknowledge := by
  intro s v draw
  rw [hostStep_write_status]
  refine ⟨statusWord_toNat s, congrArg (respond .ok) (writeStatus_eq_ite v s),
    fun hv => irq_of_not_done (writeStatus_done_of_acknowledge hv s), rfl, fun hidle => ?acceptance,
    fun hv => ?softReset, rfl⟩
  case acceptance => rw [hostStep_write_cmd hidle]; exact ⟨rfl, rfl⟩
  case softReset => rw [hostStep_write_ctrl, writeCtrl_of_softReset hv]; rfl

end Sys2Proof.Proofs

end

section
/-! PROOFS. The statements of 70_reset_and_hazards.md: what a byte of DMEM reads as after a power-on draw, a draw for
every content, and from these the obligation, settled at the end. -/

namespace Sys2Proof.Machine

/-! ### The content of a power-on draw (R152) -/

/-- An offset inside DMEM reads the first byte drawn for it, and the blank byte if none is (log entry 9). -/
theorem readByte_drawnMemory (draw : List Host.Cell) {n o : Nat} (ho : o < n) :
    (drawnMemory n draw).readByte o = readCell draw o := by
  induction draw with
  | nil => rfl
  | cons cell rest ih =>
    obtain ⟨k, b⟩ := cell
    by_cases hk : k = o
    · subst hk
      rw [drawnMemory, if_pos ho, readByte_writeByte_same k b (drawnMemory_wf n rest), readCell, if_pos rfl]
    · have hother : (drawnMemory n ((k, b) :: rest)).readByte o = (drawnMemory n rest).readByte o := by
        rw [drawnMemory]
        split
        · exact readByte_writeByte_other _ b (Ne.symm hk)
        · rfl
      rw [hother, ih, readCell, if_neg hk]

/-- The draw that gives each of the n offsets of DMEM its byte of the content. -/
def drawOfContent (content : Nat → Byte) (n : Nat) : List Host.Cell :=
  (List.range n).map fun o => (o, content o)

theorem readCell_map_content (content : Nat → Byte) {offsets : List Nat} {o : Nat} (ho : o ∈ offsets) :
    readCell (offsets.map fun k => (k, content k)) o = content o := by
  induction offsets with
  | nil => exact nomatch ho
  | cons k rest ih =>
    rw [List.map_cons, readCell]
    split
    case isTrue hk => rw [hk]
    case isFalse hk => exact ih ((List.mem_cons.mp ho).resolve_left (Ne.symm hk))

theorem readByte_drawnMemory_drawOfContent (content : Nat → Byte) {n o : Nat} (ho : o < n) :
    (drawnMemory n (drawOfContent content n)).readByte o = content o :=
  (readByte_drawnMemory _ ho).trans (readCell_map_content content (List.mem_range.mpr ho))

/-! ### The power-on step -/

theorem step_of_powerOn {s : State} {draw : List Host.Cell} {rest : List Event}
    (h : s.pending = .powerOn draw :: rest) :
    step s = .next (powerOnReset draw { s with pending := rest }) := by
  rw [step, h]

theorem powerOnReset_dmemSound (draw : List Host.Cell) (s : State) : (powerOnReset draw s).dmemSound = true :=
  Bool.and_eq_true_iff.mpr ⟨drawnMemory_wf _ draw, drawnMemory_within _ draw⟩

end Sys2Proof.Machine

namespace Sys2Proof.Proofs

open Sys2Proof.Machine

/-- Settles O53: the step is `powerOnReset`, and a draw that lists a content byte by byte leaves DMEM holding it. -/
theorem powerOnResetDrawsDmem : Obligations.PowerOnResetDrawsDmem := by
  constructor
  case left =>
    intro s draw rest hpending
    exact ⟨_, step_of_powerOn hpending, irq_of_not_done rfl, rfl, powerOnReset_dmemSound draw _, rfl⟩
  case right =>
    intro s content rest
    exact ⟨drawOfContent content s.cfg.dmemBytes, _, step_of_powerOn rfl,
      fun _ => readByte_drawnMemory_drawOfContent content⟩

end Sys2Proof.Proofs

end

section
/-! PROOFS. The opcode table beside the decoder (30_encoding.md) and a next state for every step
(93_implementation_defined.md): the words a row admits, a next state for the engine's turn, and from these the
obligations, each settled at the end. -/

namespace Sys2Proof.Machine

open Sys2Proof.Laws

/-! ### The rows of the opcode table -/

/-- A field under mask bits that are all 1 stays as it is. -/
theorem extractLsb'_and_of_allOnes (w : Word) {m : Word} {start len : Nat}
    (hm : m.extractLsb' start len = BitVec.allOnes len) :
    (w &&& m).extractLsb' start len = w.extractLsb' start len := by
  rw [BitVec.extractLsb'_and, hm, BitVec.and_allOnes]

/-- A field under mask bits that are all 0 becomes 0. -/
theorem extractLsb'_and_of_zero (w : Word) {m : Word} {start len : Nat} (hm : m.extractLsb' start len = 0#len) :
    (w &&& m).extractLsb' start len = 0#len := by
  rw [BitVec.extractLsb'_and, hm, BitVec.and_zero]

/-- The mask of the commands with a digit count takes DIGITS out of the word and leaves the other fields (R61). -/
theorem toNat_and_digitsMask (w : Word) : (w &&& 0xFFFFF0FF#32).toNat + cmdDigits w * 0x100 = w.toNat := by
  have hop : cmdOp (w &&& 0xFFFFF0FF#32) = cmdOp w :=
    congrArg BitVec.toNat (extractLsb'_and_of_allOnes w rfl)
  have hlow : cmdReservedLow (w &&& 0xFFFFF0FF#32) = cmdReservedLow w :=
    congrArg BitVec.toNat (extractLsb'_and_of_allOnes w rfl)
  have hdigits : cmdDigits (w &&& 0xFFFFF0FF#32) = 0 :=
    congrArg BitVec.toNat (extractLsb'_and_of_zero w rfl)
  have hhigh : cmdReservedHigh (w &&& 0xFFFFF0FF#32) = cmdReservedHigh w :=
    congrArg BitVec.toNat (extractLsb'_and_of_allOnes w rfl)
  have := toNat_eq_fields w
  have := toNat_eq_fields (w &&& 0xFFFFF0FF#32)
  omega

/-- A row of a command without a digit count admits its pattern only. -/
theorem admits_fullMask (p w : Word) : (OpcodeRow.mk 0xFFFFFFFF#32 p).admits w = true ↔ w.toNat = p.toNat := by
  have hmask : w &&& 0xFFFFFFFF#32 = w := BitVec.and_allOnes
  rw [OpcodeRow.admits, hmask, beq_iff_eq, BitVec.toNat_inj]

/-- A row of a command with a digit count admits its pattern with any DIGITS. -/
theorem admits_digitsMask (p w : Word) :
    (OpcodeRow.mk 0xFFFFF0FF#32 p).admits w = true ↔ w.toNat = p.toNat + cmdDigits w * 0x100 := by
  rw [OpcodeRow.admits, beq_iff_eq, ← BitVec.toNat_inj, ← toNat_and_digitsMask w, Nat.add_right_cancel_iff]

/-- The command of each row of `opcodeRows`, in the table's order; the last two have the digit count. -/
def rowCommands (digits : Nat) : List Instr :=
  [.sha1, .prepareKey, .hmacSha1, .b32Encode, .b32Decode, .hotpTruncate digits, .hotp digits]

/-- A row admits exactly the words that decode to its command (R63). -/
theorem opcodeRow_admits_iff_decode (w : Word) {k : Nat} (hk : k < opcodeRows.length) :
    opcodeRows[k].admits w = true ↔ decode w = .ok ((rowCommands (cmdDigits w))[k]'hk) := by
  have hdigits := cmdDigits_lt w
  rw [decode_eq_ok_iff, holdsFieldsOf_iff_toNat]
  match k, hk with
  | 0, _ | 1, _ | 2, _ | 3, _ | 4, _ => simp [opcodeRows, rowCommands, admits_fullMask, opOf, digitsOf]
  | 5, _ | 6, _ => simp [opcodeRows, rowCommands, admits_digitsMask, opOf, digitsOf, hdigits]

theorem opOf_rowCommands (digits : Nat) {k : Nat} (hk : k < (rowCommands digits).length) :
    opOf (rowCommands digits)[k] = k + 1 := by
  match k, hk with
  | 0, _ | 1, _ | 2, _ | 3, _ | 4, _ | 5, _ | 6, _ => rfl

/-- A word's command stands in a row, with the word's DIGITS if it has a count. -/
theorem mem_rowCommands_of_decode {w : Word} {i : Instr} (h : decode w = .ok i) : i ∈ rowCommands (cmdDigits w) := by
  obtain ⟨-, -, hdigits, -⟩ := (decode_eq_ok_iff w i).mp h
  rw [hdigits]
  cases i <;> simp [rowCommands, digitsOf]

/-! ### A next state -/

/-- The engine's turn passes or completes (R77; log entry 4). -/
theorem engineTurn_has_next (s : State) : ∃ t, engineTurn s = .next t := by
  cases hb : s.busy with
  | false => exact ⟨s, engineTurn_of_idle hb⟩
  | true =>
    obtain ⟨t, ht, -⟩ := engineTurn_completes hb
    exact ⟨t, ht⟩

end Sys2Proof.Machine

namespace Sys2Proof.Proofs

open Sys2Proof.Machine

/-- Settles O3: a row stands for one command, a word has at most one, and OP tells the rows' commands apart. -/
theorem opcodeRowsMatchTheDecoder : Obligations.OpcodeRowsMatchTheDecoder := by
  refine ⟨fun w => ⟨?admitted, ?decoded⟩, fun w j k hj hk hjw hkw => ?disjoint⟩
  case admitted =>
    rintro ⟨i, hi⟩
    obtain ⟨k, hk, rfl⟩ := List.mem_iff_getElem.mp (mem_rowCommands_of_decode hi)
    exact ⟨opcodeRows[k], List.getElem_mem (l := opcodeRows) hk, (opcodeRow_admits_iff_decode w hk).mpr hi⟩
  case decoded =>
    rintro ⟨r, hr, hrw⟩
    obtain ⟨k, hk, rfl⟩ := List.mem_iff_getElem.mp hr
    exact ⟨_, (opcodeRow_admits_iff_decode w hk).mp hrw⟩
  case disjoint =>
    rw [opcodeRow_admits_iff_decode] at hjw hkw
    have hop := congrArg Laws.opOf (Except.ok.inj (hjw.symm.trans hkw))
    exact Nat.succ.inj ((opOf_rowCommands _ hj).symm.trans (hop.trans (opOf_rowCommands _ hk)))

/-- Settles O4: the words are closed, so the decoder computes each answer. -/
theorem wordsOfTheSpecDecode : Obligations.WordsOfTheSpecDecode := by
  constructor
  case left => rfl
  case right => rfl

/-- Settles O9: a transaction and a power-on reset have their next state, and so has the engine's turn. -/
theorem stepNeverStops : Obligations.StepNeverStops := by
  intro s
  rcases step_cases s with ⟨-, h⟩ | ⟨x, rest, -, h⟩ | ⟨rest, -, h⟩ | ⟨draw, rest, -, h⟩ <;> rw [h]
  · exact engineTurn_has_next s
  · exact ⟨_, rfl⟩
  · exact engineTurn_has_next _
  · exact ⟨_, rfl⟩

end Sys2Proof.Proofs

end
